-- ==== Sys2Proof/Word.lean ====
section
/-! DEFINITION. The word types of the engine (spec 00_scope.md R10). -/

namespace Sys2Proof

/-- A byte: an unsigned 8-bit value (R10). -/
abbrev Byte := BitVec 8

/-- The spec's `u64`: an unsigned 64-bit value (R10). -/
abbrev U64 := BitVec 64

/-- A lane: "one of 25 64-bit words composing the 1600-bit permutation state" (R16, R22). -/
abbrev Lane := U64

/-- A session id (R8 `SID_WIDTH`, R28): 64 bits, compared for equality only (R75). -/
abbrev SessionId := U64

end Sys2Proof
end

