-- ==== Sys2Proof/Syntax.lean ====
section
/-! DEFINITION. The commands of the engine: one constructor for each row of the opcode table (R73). -/

namespace Sys2Proof

/-- A command with its operands (R71, R73, R75). -/
inductive Instr where
  /-- INIT: open a new session (R181). -/
  | init
  /-- UPDATE: absorb `chunk` into session `sid` (R141). -/
  | update (sid : SessionId) (chunk : List Byte)
  /-- FINAL: pad, permute, squeeze and retire session `sid` (R162). -/
  | final (sid : SessionId)
  /-- PERMUTE: the permutation on a 200-byte state byte view (R113). -/
  | permute (operand : List Byte)
  deriving DecidableEq, Repr

end Sys2Proof
end

