-- ==== Sys2Proof/WellFormed.lean ====
section
/-! DEFINITION. Which commands have an encoding: the length field and the operand width. -/

namespace Sys2Proof

/-- The commands a frame can hold: a chunk has at most 2^64 - 1 bytes (R8 `LEN_WIDTH`, R141), the
operand of PERMUTE exactly 200 (R73, R113). -/
def Instr.wf : Instr → Bool
  | .init => true
  | .update _ chunk => decide (chunk.length < 2 ^ 64)
  | .final _ => true
  | .permute operand => decide (operand.length = 200)

end Sys2Proof
end

