-- ==== Sys2Proof/Decode.lean ====
section
/-! DEFINITION. Command frames (30_encoding.md): byte order, decoder, encoder, framing. -/

namespace Sys2Proof

/-- `Σ byte[k] · 2^(8k)` (R71, R23): byte 0 is the least significant. -/
def u64OfBytes : List Byte → U64
  | [] => 0
  | b :: bs => b.setWidth 64 ||| (u64OfBytes bs <<< 8)

/-- The eight bytes of a `u64`, least significant first (R57, R71). -/
def bytesOfU64 (w : U64) : List Byte :=
  (List.range 8).map fun k => w.extractLsb' (8 * k) 8

/-- The three words of a frame's 24-byte header (R71). -/
structure Header where
  w0 : U64
  w1 : U64
  w2 : U64
  deriving DecidableEq, Repr

/-- `OPC = W0[7:0]` (R72). -/
def Header.opc (h : Header) : Byte := h.w0.extractLsb' 0 8

/-- `RSV = W0[63:8]` (R72). -/
def Header.rsv (h : Header) : BitVec 56 := h.w0.extractLsb' 8 56

/-- The header, once its 24 bytes are there (R76). -/
def headerOf (bytes : List Byte) : Option Header :=
  if 24 ≤ bytes.length then
    some { w0 := u64OfBytes (bytes.take 8)
           w1 := u64OfBytes ((bytes.drop 8).take 8)
           w2 := u64OfBytes ((bytes.drop 16).take 8) }
  else none

/-- "Every command frame, legal or not, is exactly `24 + W2` bytes long" (R76). -/
def frameLength (bytes : List Byte) : Option Nat :=
  (headerOf bytes).map fun h => 24 + h.w2.toNat

/-- The whole frame has been delivered (R76). -/
def isWhole (bytes : List Byte) : Bool :=
  match frameLength bytes with
  | none => false
  | some n => decide (n ≤ bytes.length)

/-- Why the decoder gives no command. -/
inductive Reject where
  /-- Not all `24 + W2` bytes are there: the engine waits (R76, R238). -/
  | incomplete
  /-- `RSV ≠ 0` (R79). -/
  | reservedBits
  /-- `OPC` is none of `0x01` .. `0x04` (R79). -/
  | reservedOpcode
  /-- A constraint of R74 on `W1` or `W2` is broken (R79). -/
  | fieldConstraint
  deriving DecidableEq, Repr

/-- `W0` of each command (R73). -/
def Instr.w0 : Instr → U64
  | .init => 0x0000000000000001
  | .update _ _ => 0x0000000000000002
  | .final _ => 0x0000000000000003
  | .permute _ => 0x0000000000000004

/-- Decoding of a header and its payload: by the whole of `W0` (R73), then the constraints of R74.
The order is that of R206, steps 1 and 2. -/
def decodeHeader (h : Header) (payload : List Byte) : Except Reject Instr :=
  if h.w0 = 0x0000000000000001 then
    if h.w1 = 0 ∧ h.w2 = 0 then .ok .init else .error .fieldConstraint
  else if h.w0 = 0x0000000000000002 then .ok (.update h.w1 payload)
  else if h.w0 = 0x0000000000000003 then
    if h.w2 = 0 then .ok (.final h.w1) else .error .fieldConstraint
  else if h.w0 = 0x0000000000000004 then
    if h.w1 = 0 ∧ h.w2 = 200 then .ok (.permute payload) else .error .fieldConstraint
  else if h.rsv ≠ 0 then .error .reservedBits
  else .error .reservedOpcode

/-- The decoder: total on any bytes (R80). It reads the first frame; bytes after it are no part of
it (R76). -/
def decode (bytes : List Byte) : Except Reject Instr :=
  match headerOf bytes with
  | none => .error .incomplete
  | some h =>
    if bytes.length < 24 + h.w2.toNat then .error .incomplete
    else decodeHeader h ((bytes.drop 24).take h.w2.toNat)

/-- A frame: three little-endian words, then the payload (R71). -/
def frameOf (w0 w1 w2 : U64) (payload : List Byte) : List Byte :=
  bytesOfU64 w0 ++ bytesOfU64 w1 ++ bytesOfU64 w2 ++ payload

/-- The encoder, from the opcode map of R73. -/
def encode : Instr → List Byte
  | .init => frameOf 0x0000000000000001 0 0 []
  | .update sid chunk => frameOf 0x0000000000000002 sid (BitVec.ofNat 64 chunk.length) chunk
  | .final sid => frameOf 0x0000000000000003 sid 0 []
  | .permute operand => frameOf 0x0000000000000004 0 200 operand

/-- Cutting delivered bytes into frames, each `24 + W2` bytes (R76); the last one may be partly
delivered. The first argument bounds the number of frames. -/
def splitFrames : Nat → List Byte → List (List Byte)
  | 0, _ => []
  | n + 1, bytes =>
    if bytes = [] then []
    else
      match frameLength bytes with
      | none => [bytes]
      | some len =>
        if bytes.length ≤ len then [bytes]
        else bytes.take len :: splitFrames n (bytes.drop len)

/-- The session a frame names (R236): the `SID` of an UPDATE, or of a FINAL that keeps R74, as soon
as the header is there (log 7). -/
def sessionNamed (bytes : List Byte) : Option SessionId :=
  match headerOf bytes with
  | none => none
  | some h =>
    if h.w0 = 0x0000000000000002 then some h.w1
    else if h.w0 = 0x0000000000000003 ∧ h.w2 = 0 then some h.w1
    else none

/-- `W0[7:0]` of a frame, legal or not (R77 `ROPC`). -/
def opcodeByte (bytes : List Byte) : Byte :=
  bytes.headD 0

/-- The low `n` bytes of a number, least significant first. -/
def bytesOfNat (n w : Nat) : List Byte :=
  (List.range n).map fun k => BitVec.ofNat 8 (w >>> (8 * k))

/-- The frame whose low `nbits` bits are `w`, numbered as the opcode table numbers them, and whose
other bits are zero: padded to the header, then to the length the header gives (R71, R76). -/
def tableFrame (nbits w : Nat) : List Byte :=
  let given := bytesOfNat ((nbits + 7) / 8) w
  let header := given ++ List.replicate (24 - given.length) 0
  match frameLength header with
  | none => header
  | some len => header ++ List.replicate (len - header.length) 0

/-- What the decoder reads from the frame of `tableFrame`. -/
def decodeTableWord (nbits w : Nat) : Option Instr :=
  match decode (tableFrame nbits w) with
  | .ok i => some i
  | .error _ => none

end Sys2Proof
end

