-- ==== Sys2Proof/Machine/Flags.lean ====
section
/-! DEFINITION. The outcome of a command: the engine has no flags (R31), only the STATUS field of
the response frame (R77, R78). -/

namespace Sys2Proof.Machine

/-- The names of R78. -/
inductive Status where
  | ok
  | unknownSession
  | sessionFinalized
  | emptySession
  | illegalCommand
  | sessionLimit
  deriving DecidableEq, Repr

/-- The codes of R78. -/
def Status.code : Status → Byte
  | .ok => 0x00
  | .unknownSession => 0x01
  | .sessionFinalized => 0x02
  | .emptySession => 0x03
  | .illegalCommand => 0x04
  | .sessionLimit => 0x05

/-- `RW0` (R77): `STATUS` in bits `[7:0]`, `ROPC` in `[15:8]`, zero above. -/
def responseWord (status : Status) (ropc : Byte) : U64 :=
  status.code.setWidth 64 ||| (ropc.setWidth 64 <<< 8)

/-- A response frame (R77): the header word, then the result payload. -/
def responseBytes (status : Status) (ropc : Byte) (payload : List Byte) : List Byte :=
  bytesOfU64 (responseWord status ropc) ++ payload

end Sys2Proof.Machine
end

