-- ==== Sys2Proof/Config.lean ====
section
/-! DEFINITION. What the spec leaves open: the engine's configuration (R9) and the free values. -/

namespace Sys2Proof

/-- `RETIRED_ID_ERROR` (R9): which error UPDATE or FINAL on an already finalized id reports. -/
inductive RetiredIdError where
  | sessionFinalized
  | unknownSession
  deriving DecidableEq, Repr

/-- The open parameters of R9, "fixed for the engine's lifetime" (R32). -/
structure Config where
  /-- `MAX_SESSIONS`, a natural number of at least 1: most sessions open at once. -/
  maxSessions : Nat
  /-- `ALLOW_EMPTY_FINAL`: whether FINAL on a session that absorbed no byte succeeds. -/
  allowEmptyFinal : Bool
  /-- `RETIRED_ID_ERROR`. -/
  retiredIdError : RetiredIdError
  deriving DecidableEq, Repr

/-- FREE VALUE (log 2): `MAX_SESSIONS` has no default, so the engine that comes out of reset has
one session and an unspecified number more. -/
opaque Config.extraSessions : Nat

/-- FREE VALUE (log 3): the candidates for `SID_DRAW` (R9, U4), one for each value of the counter. -/
opaque Config.sidDraw : Nat → SessionId

/-- FREE VALUE (log 4): which of several whole frames in flight is processed next (R20, R64, U9),
one choice for each value of the counter. -/
opaque Config.freeOrder : Nat → Nat

/-- The configuration of the engine that `State.reset` stands for: the defaults of R9. -/
def Config.standard : Config :=
  { maxSessions := Config.extraSessions + 1
    allowEmptyFinal := true
    retiredIdError := .sessionFinalized }

end Sys2Proof
end

