-- ==== Sys2Proof/Machine/State.lean ====
section
/-! DEFINITION. The state of the engine (10_state.md), with the frames in flight and the free
choices, as plain data. -/

namespace Sys2Proof.Machine

/-- A sponge state (R22): 25 lanes, lane `(x, y)` at number `x + 5 * y`. -/
abbrev Sponge := Vector Lane 25

/-- The record of an open session (R25). -/
structure Session where
  /-- `A`, the sponge state. -/
  A : Sponge
  /-- `buf`, the pending buffer (R26). -/
  buf : List Byte
  /-- `total`, the byte counter (R27). -/
  total : U64
  deriving DecidableEq, Repr

/-- A command frame in flight: sent, wholly or in part, and not yet answered (R236, R238). -/
structure Frame where
  /-- The host that sent it, to which the response goes (R210). -/
  host : Nat
  /-- The epoch in which its sender obtained the id the frame names (R239, log 6). -/
  obtained : Nat
  /-- The bytes delivered so far (R76). -/
  bytes : List Byte
  deriving DecidableEq, Repr

/-- A response frame (R77) and the host it went to (R210). -/
structure Response where
  host : Nat
  bytes : List Byte
  deriving DecidableEq, Repr

/-- What happens next, of the things that can happen between two commands (R20, R64, R232). -/
inductive Turn where
  /-- The engine takes the `k`-th frame in flight. -/
  | serve (k : Nat)
  /-- Host `host` sends bytes, naming an id it obtained in epoch `obtained`. -/
  | send (host obtained : Nat) (bytes : List Byte)
  /-- The sender of the `k`-th frame in flight delivers more bytes (R238). -/
  | more (k : Nat) (bytes : List Byte)
  /-- The platform asserts the reset input (R230). -/
  | reset
  deriving DecidableEq, Repr

structure State where
  /-- The configuration (R9): no step writes it (R32, log 1). -/
  cfg : Config
  /-- `sessions` (R28): the open sessions, ids strictly rising. -/
  sessions : List (SessionId × Session)
  /-- `issued` (R28): every id INIT has returned since the last reset, strictly rising. -/
  issued : List SessionId
  /-- The frames in flight, in the order in which they came; while a command executes, its frame
  stands first (R236, R238). -/
  port : List Frame
  /-- What moves next (R20); empty: the engine, on a frame of its own choice (log 4). -/
  turns : List Turn
  /-- The response frames emitted, oldest first: what a run observes (R242, log 5). -/
  responses : List Response
  /-- The values the coming INITs draw (R9 `SID_DRAW`, log 3). -/
  draws : List SessionId
  /-- The counter of the free values (log 3, log 4). -/
  freeCount : Nat
  /-- How many resets there have been (R239, log 6). -/
  epoch : Nat
  deriving DecidableEq, Repr

/-- Why the machine stops with a fault. -/
inductive Fault where
  /-- `SameSessionOverlap` (R236, U1): two commands on one session are in flight at once. Raised by
  `step`, on any turn. Safe: the engine would go on, but "no digest is promised". -/
  | sameSessionOverlap
  /-- `StaleSessionId` (R239, U7): a command uses an id obtained before the last reset. Raised by
  `step` when the engine takes the frame. Safe: the engine would answer it as any other id. -/
  | staleSessionId
  deriving DecidableEq, Repr

/-- Why the model gives an instruction no meaning. -/
inductive Refusal where
  /-- Raised by an arm of `exec` whose instruction is not modelled; there is none left. Safe: the
  model stops. -/
  | notModelled (mnemonic : String)
  deriving DecidableEq, Repr

/-- The engine right after reset (R38, R230, R231); no frame is in flight, nothing has been
observed, and no choice has been made (log 2, log 19). -/
def State.reset : State :=
  { cfg := Config.standard
    sessions := []
    issued := []
    port := []
    turns := []
    responses := []
    draws := []
    freeCount := 0
    epoch := 0 }

end Sys2Proof.Machine
end

