-- ==== Sys2Proof/Machine/Operands.lean ====
section
/-! DEFINITION. Reading and writing a sponge state: lanes (R22) and the byte view (R23). -/

namespace Sys2Proof.Machine

/-- `lane(i)` (R22, R23), for `i` in 0 .. 24. -/
def Sponge.lane (A : Sponge) (i : Nat) : Lane := A[i]?.getD 0

/-- `A[x,y]` (R13, R22); indices are taken mod 5 (R11). -/
def Sponge.at (A : Sponge) (x y : Nat) : Lane := Sponge.lane A (x % 5 + 5 * (y % 5))

/-- The state whose lane `(x, y)` is `f x y`, for `x` and `y` in 0 .. 4 (R22). -/
def Sponge.build (f : Nat → Nat → Lane) : Sponge :=
  Vector.ofFn fun i : Fin 25 => f (i.val % 5) (i.val / 5)

/-- "A fresh zeroed SpongeState" (R38). -/
def Sponge.zero : Sponge := Vector.replicate 25 0

/-- `MemRead(j, 1)` (R23). -/
def memRead (A : Sponge) (j : Nat) : Byte :=
  (Sponge.lane A (j / 8)).extractLsb' (8 * (j % 8)) 8

/-- A lane with the byte at bits `[8k+7 : 8k]` replaced, "other bits kept" (R23). -/
def setLaneByte (w : Lane) (k : Nat) (v : Byte) : Lane :=
  (w &&& ~~~((0xFF : Lane) <<< (8 * k))) ||| (v.setWidth 64 <<< (8 * k))

/-- `MemWrite(j, 1, v)` (R23). -/
def memWrite (A : Sponge) (j : Nat) (v : Byte) : Sponge :=
  A.setIfInBounds (j / 8) (setLaneByte (Sponge.lane A (j / 8)) (j % 8) v)

/-- `MemRead(j, n)` (R23). -/
def memReadN (A : Sponge) (j n : Nat) : List Byte :=
  (List.range n).map fun k => memRead A (j + k)

/-- `lanes_of` (R23): the operand of PERMUTE as a state (R75). -/
def lanesOf (bytes : List Byte) : Sponge :=
  Vector.ofFn fun i : Fin 25 => u64OfBytes ((bytes.drop (8 * i.val)).take 8)

/-- `bytes_of(A) = MemRead(0, 200)` (R23). -/
def bytesOf (A : Sponge) : List Byte := memReadN A 0 200

end Sys2Proof.Machine
end

