-- ==== Sys2Proof/Machine/Keccak.lean ====
section
/-! DEFINITION. The Permutation Core, Keccak-f[1600] (40_permutation.md). -/

namespace Sys2Proof.Machine

/-- `rotl64(a, n)` for `n` in 0 .. 63 (R11). -/
def rotl64 (a : Lane) (n : Nat) : Lane := (a <<< n) ||| (a >>> (64 - n))

/-- `C[x]` of theta (R103): the parity of a column. -/
def columnParity (A : Sponge) (x : Nat) : Lane :=
  Sponge.at A x 0 ^^^ Sponge.at A x 1 ^^^ Sponge.at A x 2 ^^^ Sponge.at A x 3 ^^^ Sponge.at A x 4

/-- `D[x]` of theta (R103); `(x - 1) mod 5` is `(x + 4) mod 5`. -/
def thetaMask (A : Sponge) (x : Nat) : Lane :=
  columnParity A (x + 4) ^^^ rotl64 (columnParity A (x + 1)) 1

/-- θ (R103). -/
def theta (A : Sponge) : Sponge :=
  Sponge.build fun x y => Sponge.at A x y ^^^ thetaMask A x

/-- The rotation offsets, by lane number (R105). -/
def rotationOffsets : List Nat :=
  [0, 1, 62, 28, 27, 36, 44, 6, 55, 20, 3, 10, 43, 25, 39, 41, 45, 15, 21, 8, 18, 2, 61, 56, 14]

/-- `r[x,y]` (R105). -/
def rotationOffset (x y : Nat) : Nat := rotationOffsets.getD (x % 5 + 5 * (y % 5)) 0

/-- ρ (R104). -/
def rho (A : Sponge) : Sponge :=
  Sponge.build fun x y => rotl64 (Sponge.at A x y) (rotationOffset x y)

/-- π (R106), by destination: `A'[X,Y] = A[(X + 3Y) mod 5, X]`. -/
def pi (A : Sponge) : Sponge :=
  Sponge.build fun x y => Sponge.at A (x + 3 * y) x

/-- χ (R107). -/
def chi (A : Sponge) : Sponge :=
  Sponge.build fun x y =>
    Sponge.at A x y ^^^ (~~~(Sponge.at A (x + 1) y) &&& Sponge.at A (x + 2) y)

/-- `RC[ir]` (R109), row by row as the table has it; the rounds are 0 to 23 (log 15). -/
def roundConstant : Nat → Lane
  | 0 => 0x0000000000000001 | 12 => 0x000000008000808B
  | 1 => 0x0000000000008082 | 13 => 0x800000000000008B
  | 2 => 0x800000000000808A | 14 => 0x8000000000008089
  | 3 => 0x8000000080008000 | 15 => 0x8000000000008003
  | 4 => 0x000000000000808B | 16 => 0x8000000000008002
  | 5 => 0x0000000080000001 | 17 => 0x8000000000000080
  | 6 => 0x8000000080008081 | 18 => 0x000000000000800A
  | 7 => 0x8000000000008009 | 19 => 0x800000008000000A
  | 8 => 0x000000000000008A | 20 => 0x8000000080008081
  | 9 => 0x0000000000000088 | 21 => 0x8000000000008080
  | 10 => 0x0000000080008009 | 22 => 0x0000000080000001
  | 11 => 0x000000008000000A | 23 => 0x8000000080008008
  | _ => 0

/-- ι (R108). -/
def iota (A : Sponge) (ir : Nat) : Sponge :=
  Sponge.build fun x y =>
    if x = 0 ∧ y = 0 then Sponge.at A 0 0 ^^^ roundConstant ir else Sponge.at A x y

/-- One round (R102). -/
def rnd (A : Sponge) (ir : Nat) : Sponge := iota (chi (pi (rho (theta A)))) ir

/-- `KeccakF` (R101): rounds 0 to 23. -/
def keccakF (A : Sponge) : Sponge := (List.range 24).foldl rnd A

end Sys2Proof.Machine
end

