-- ==== Sys2Proof/Machine/Ops.lean ====
section
/-! DEFINITION. The shared operations: the registry, the absorber, padding and squeeze, the response
and the error response. -/

namespace Sys2Proof.Machine

/-! ### The registry (R28) -/

/-- The record of an open session. -/
def findSession : List (SessionId × Session) → SessionId → Option Session
  | [], _ => none
  | (k, r) :: rest, sid => if k = sid then some r else findSession rest sid

/-- `sessions[sid] <- r`, keeping the ids strictly rising. -/
def putSession (sid : SessionId) (r : Session) :
    List (SessionId × Session) → List (SessionId × Session)
  | [] => [(sid, r)]
  | (k, q) :: rest =>
    if sid < k then (sid, r) :: (k, q) :: rest
    else if sid = k then (sid, r) :: rest
    else (k, q) :: putSession sid r rest

/-- `sessions without sid`. -/
def dropSession (sid : SessionId) : List (SessionId × Session) → List (SessionId × Session)
  | [] => []
  | (k, q) :: rest => if k = sid then rest else (k, q) :: dropSession sid rest

/-- `issued ∪ {sid}`, keeping the ids strictly rising. -/
def addIssued (sid : SessionId) : List SessionId → List SessionId
  | [] => [sid]
  | k :: rest =>
    if sid < k then sid :: k :: rest
    else if sid = k then k :: rest
    else k :: addIssued sid rest

/-- "A fresh zeroed SpongeState and empty pendingBuffer" (R180), `total = 0` (R38). -/
def freshSession : Session := { A := Sponge.zero, buf := [], total := 0 }

/-- `lookup(sid)` (R182): the open session, or the error that UPDATE and FINAL raise. -/
def State.lookup (s : State) (sid : SessionId) : Except Status Session :=
  match findSession s.sessions sid with
  | some r => .ok r
  | none =>
    if sid ∈ s.issued then
      match s.cfg.retiredIdError with
      | .sessionFinalized => .error .sessionFinalized
      | .unknownSession => .error .unknownSession
    else .error .unknownSession

/-! ### The draw of a fresh id (R181, log 3) -/

/-- The first value at or after `c`, going round, that is not 0 and not issued; the first argument
bounds the search. -/
def firstFresh (issued : List SessionId) : Nat → SessionId → Option SessionId
  | 0, _ => none
  | n + 1, c => if c ≠ 0 ∧ c ∉ issued then some c else firstFresh issued n (c + 1)

/-- The candidate of the next draw: the next listed one, else a free value. -/
def State.candidate (s : State) : SessionId :=
  match s.draws with
  | v :: _ => v
  | [] => Config.sidDraw s.freeCount

/-- `draw(v : v != 0 and v not in issued)` (R181), or none if no such value exists: `n + 2`
candidates are more than 0 and the `n` issued ids. Every fresh value is drawn for some candidate,
itself. -/
def State.drawSid (s : State) : Option SessionId :=
  firstFresh s.issued (s.issued.length + 2) s.candidate

/-! ### The response (R77) -/

/-- The host whose command is in service (R210, log 10). -/
def State.sender (s : State) : Nat :=
  match s.port with
  | f :: _ => f.host
  | [] => 0

/-- `respond(status, payload)` (R13, R77): the response goes to the sender of the command in
service, and its frame is no longer in flight. -/
def State.respond (s : State) (status : Status) (ropc : Byte) (payload : List Byte) : State :=
  { s with
    port := s.port.tail
    responses := s.responses ++ [{ host := s.sender, bytes := responseBytes status ropc payload }] }

/-- `raise <Error>` (R13, R207): TAKING AN EXCEPTION on this hardware. The command ends with the
error response, "exactly 8 bytes" (R77), and no other change; there is no handler, no saved context
and nothing to return from (R208). -/
def State.raise (s : State) (error : Status) (ropc : Byte) : State :=
  s.respond error ropc []

/-! ### Absorption, padding and squeeze -/

/-- The rate in bytes, `RATE` (R8). -/
def rate : Nat := 136

/-- `MemWrite(j, 1, MemRead(j, 1) ^ P[j])` for `j` in 0 .. 135 (R140, R162). -/
def xorRate (A : Sponge) (P : List Byte) : Sponge :=
  (List.range rate).foldl (fun A j => memWrite A j (memRead A j ^^^ P.getD j 0)) A

/-- `AbsorbBlock(A, P)` (R140). -/
def absorbBlock (A : Sponge) (P : List Byte) : Sponge := keccakF (xorRate A P)

/-- The loop of UPDATE (R141): "while len(q) >= 136", at most as often as the first argument says. -/
def absorbLoop : Nat → Sponge → List Byte → Sponge × List Byte
  | 0, A, q => (A, q)
  | n + 1, A, q =>
    if rate ≤ q.length then absorbLoop n (absorbBlock A (q.take rate)) (q.drop rate) else (A, q)

/-- UPDATE on a session record (R141). -/
def absorbChunk (r : Session) (chunk : List Byte) : Session :=
  let q := r.buf ++ chunk
  let out := absorbLoop (q.length / rate) r.A q
  { A := out.1, buf := out.2, total := r.total + BitVec.ofNat 64 chunk.length }

/-- `PAD_FIRST` (R8). -/
def padFirst : Byte := 0x01

/-- `PAD_LAST` (R8). -/
def padLast : Byte := 0x80

/-- `Pad(buf)` (R160). -/
def pad (buf : List Byte) : List Byte :=
  (buf ++ [padFirst] ++ List.replicate (135 - buf.length) 0).modify 135 (· ^^^ padLast)

/-- `Squeeze(A) = MemRead(0, 32)` (R161). -/
def squeeze (A : Sponge) : List Byte := memReadN A 0 32

/-- The digest FINAL gives for a session record (R162): one padded block, one permutation. -/
def digestOf (r : Session) : List Byte := squeeze (absorbBlock r.A (pad r.buf))

end Sys2Proof.Machine
end

