-- ==== Sys2Proof/Machine/Absorption.lean ====
section
/-! DEFINITION. The Absorption Engine: UPDATE (41_absorption.md). -/

namespace Sys2Proof.Machine

/-- What UPDATE leaves (R141). -/
def updateResult (sid : SessionId) (chunk : List Byte) (s : State) : State :=
  match s.lookup sid with
  | .error e => s.raise e 0x02
  | .ok r =>
    State.respond { s with sessions := putSession sid (absorbChunk r chunk) s.sessions } .ok 0x02 []

/-- UPDATE (R141). -/
def execUpdate (sid : SessionId) (chunk : List Byte) (s : State) :
    Host.Outcome State Fault Refusal :=
  .next (updateResult sid chunk s)

end Sys2Proof.Machine
end

