-- ==== Sys2Proof/Machine/Finalizer.lean ====
section
/-! DEFINITION. The Finalizer: FINAL (42_finalizer.md). -/

namespace Sys2Proof.Machine

/-- `sessions without sid`: `sid` stays in `issued` and is now retired (R162). -/
def State.retire (s : State) (sid : SessionId) : State :=
  { s with sessions := dropSession sid s.sessions }

/-- What FINAL leaves (R162); the empty-finalization policy retires the session (R163). -/
def finalResult (sid : SessionId) (s : State) : State :=
  match s.lookup sid with
  | .error e => s.raise e 0x03
  | .ok r =>
    if s.cfg.allowEmptyFinal = false ∧ r.total = 0 then (s.retire sid).raise .emptySession 0x03
    else (s.retire sid).respond .ok 0x03 (digestOf r)

/-- FINAL (R162). -/
def execFinal (sid : SessionId) (s : State) : Host.Outcome State Fault Refusal :=
  .next (finalResult sid s)

end Sys2Proof.Machine
end

