-- ==== Sys2Proof/Machine/Permute.lean ====
section
/-! DEFINITION. PERMUTE: the Permutation Core on a host-supplied state (40_permutation.md R113). -/

namespace Sys2Proof.Machine

/-- PERMUTE (R113): no session is read or written. -/
def execPermute (operand : List Byte) (s : State) : Host.Outcome State Fault Refusal :=
  .next (s.respond .ok 0x04 (bytesOf (keccakF (lanesOf operand))))

end Sys2Proof.Machine
end

