-- ==== Sys2Proof/Machine/Registry.lean ====
section
/-! DEFINITION. The Session Registry: INIT (43_registry.md). -/

namespace Sys2Proof.Machine

/-- The state with session `sid` opened: one new entry in `sessions`, one new member of `issued`
(R181), and the draw used up (log 3). -/
def State.openSession (s : State) (sid : SessionId) : State :=
  { s with
    sessions := putSession sid freshSession s.sessions
    issued := addIssued sid s.issued
    draws := s.draws.tail
    freeCount := s.freeCount + 1 }

/-- What INIT leaves (R181); the limit is reached with `MAX_SESSIONS` sessions open (log 16). -/
def initResult (s : State) : State :=
  if s.cfg.maxSessions ≤ s.sessions.length then s.raise .sessionLimit 0x01
  else
    match s.drawSid with
    | none => s.raise .sessionLimit 0x01
    | some sid => (s.openSession sid).respond .ok 0x01 (bytesOfU64 sid)

/-- INIT (R181). -/
def execInit (s : State) : Host.Outcome State Fault Refusal := .next (initResult s)

end Sys2Proof.Machine
end

