-- ==== Sys2Proof/Machine/Dispatch.lean ====
section
/-! DEFINITION. One arm for each command of the opcode table (R73). -/

namespace Sys2Proof.Machine

def exec (i : Instr) (s : State) : Host.Outcome State Fault Refusal :=
  match i with
  | .init => Sys2Proof.Machine.execInit s
  | .update sid chunk => Sys2Proof.Machine.execUpdate sid chunk s
  | .final sid => Sys2Proof.Machine.execFinal sid s
  | .permute operand => Sys2Proof.Machine.execPermute operand s

end Sys2Proof.Machine
end

