-- ==== Sys2Proof/Machine/Port.lean ====
section
/-! DEFINITION. The frames in flight: delivery (R76, R238), overlap (R236), reset (R230). -/

namespace Sys2Proof.Machine

/-- Session `sid` exists: its id is open (R28). -/
def State.isOpen (s : State) (sid : SessionId) : Bool := (findSession s.sessions sid).isSome

/-- The open session a frame in flight names, if it names one (R236, log 7). -/
def State.openNamed (s : State) (f : Frame) : Option SessionId :=
  match sessionNamed f.bytes with
  | none => none
  | some sid => if s.isOpen sid then some sid else none

/-- Some id stands in the list twice. -/
def hasRepeat : List SessionId → Bool
  | [] => false
  | v :: vs => vs.contains v || hasRepeat vs

/-- "Two commands on one session are in flight at once" (R236). -/
def State.overlapping (s : State) : Bool := hasRepeat (s.port.filterMap s.openNamed)

/-- A command uses an id that its sender obtained before the last reset (R239, log 6). -/
def staleUse (epoch obtained : Nat) : Instr → Bool
  | .init => false
  | .update _ _ => decide (obtained < epoch)
  | .final _ => decide (obtained < epoch)
  | .permute _ => false

/-- The frames that delivered bytes make up (R76). -/
def framesFrom (host obtained : Nat) (bytes : List Byte) : List Frame :=
  (splitFrames bytes.length bytes).map fun b => { host := host, obtained := obtained, bytes := b }

/-- A host sends bytes: its frames join the frames in flight (log 13). -/
def State.landSend (s : State) (host obtained : Nat) (bytes : List Byte) : State :=
  { s with port := s.port ++ framesFrom host obtained bytes }

/-- The sender of the `k`-th frame in flight delivers more bytes of it (R238, log 13). -/
def State.landMore (s : State) (k : Nat) (bytes : List Byte) : State :=
  match s.port[k]? with
  | none => s
  | some f =>
    { s with port := s.port.take k ++ framesFrom f.host f.obtained (f.bytes ++ bytes)
        ++ s.port.drop (k + 1) }

/-- The reset event (R230): every session is discarded and every id is void; a command in flight
"never runs and gets no response" (R232, log 9). -/
def State.hardReset (s : State) : State :=
  { s with sessions := [], issued := [], port := [], epoch := s.epoch + 1 }

/-- The engine takes frame `f`: it stands first while its command executes. -/
def State.takeFrame (s : State) (k : Nat) (f : Frame) : State :=
  { s with port := f :: s.port.eraseIdx k }

/-- The numbers of the wholly delivered frames in flight. -/
def State.wholeFrames (s : State) : List Nat :=
  (List.range s.port.length).filter fun k =>
    match s.port[k]? with
    | none => false
    | some f => isWhole f.bytes

end Sys2Proof.Machine
end

