-- ==== Sys2Proof/Machine/Service.lean ====
section
/-! DEFINITION. The engine's turn: it takes one wholly delivered frame, decodes it and executes it,
or answers that it is illegal (R60, R76, R79). -/

namespace Sys2Proof.Machine

/-- The engine's turn on the `k`-th frame in flight. A frame not wholly delivered, or none, leaves
everything as it is: the engine waits (R217, R238, log 8). -/
def State.serve (s : State) (k : Nat) : Host.Outcome State Fault Refusal :=
  match s.port[k]? with
  | none => .next s
  | some f =>
    match decode f.bytes with
    | .error .incomplete => .next s
    | .error .reservedBits => .next ((s.takeFrame k f).raise .illegalCommand (opcodeByte f.bytes))
    | .error .reservedOpcode => .next ((s.takeFrame k f).raise .illegalCommand (opcodeByte f.bytes))
    | .error .fieldConstraint => .next ((s.takeFrame k f).raise .illegalCommand (opcodeByte f.bytes))
    | .ok i =>
      if staleUse s.epoch f.obtained i then .fault .staleSessionId
      else exec i (s.takeFrame k f)

/-- The engine's turn on a frame of its own choice: any whole frame (R20, R64, log 4). -/
def State.serveAny (s : State) : Host.Outcome State Fault Refusal :=
  match s.wholeFrames with
  | [] => .next s
  | [k] => s.serve k
  | k :: l :: rest =>
    let choice := Config.freeOrder s.freeCount % (rest.length + 2)
    State.serve { s with freeCount := s.freeCount + 1 } ((k :: l :: rest).getD choice k)

/-- What a turn of the list does, the turn being used up. -/
def State.takeTurn (s : State) : Turn → Host.Outcome State Fault Refusal
  | .serve k => s.serve k
  | .send host obtained bytes => .next (s.landSend host obtained bytes)
  | .more k bytes => .next (s.landMore k bytes)
  | .reset => .next s.hardReset

end Sys2Proof.Machine
end

