-- ==== Sys2Proof/Machine/Step.lean ====
section
/-! DEFINITION. One step of the machine: whatever moves next, between two commands. -/

namespace Sys2Proof.Machine

/-- One step: the fault of R236 in any state that shows it; else the next listed turn; else the
engine on a frame of its own choice (log 4). -/
def step (s : State) : Host.Outcome State Fault Refusal :=
  if s.overlapping then .fault .sameSessionOverlap
  else
    match s.turns with
    | [] => s.serveAny
    | t :: ts => State.takeTurn { s with turns := ts } t

/-- The state with one frame in flight, that of `tableFrame`, and the engine's turn to take it; its
sender obtained the id it names since the last reset. -/
def State.withFetchWord (s : State) (nbits w : Nat) : State :=
  { s with port := [{ host := 0, obtained := s.epoch, bytes := tableFrame nbits w }], turns := [] }

end Sys2Proof.Machine
end

