-- ==== Sys2Proof/Machine/Assembler.lean ====
section
/-! DEFINITION. The textual syntax of commands (R81) and the pseudo-instruction HASH (R82). It has
"no behavioural effect" (D23): it says which command a line of text stands for. Texts are lists of
characters. -/

namespace Sys2Proof.Machine

/-- `<bytes>` of R81. -/
inductive ByteExpr where
  /-- A quoted ASCII string; `""` is the empty one. -/
  | ascii (text : List Char)
  /-- `x"616263"`. -/
  | hex (bytes : List Byte)
  /-- `zeros(n)`. -/
  | zeros (n : Nat)
  /-- `pattern(n)`. -/
  | pattern (n : Nat)
  /-- `pattern(a..b)`. -/
  | patternRange (a b : Nat)
  deriving DecidableEq, Repr

/-- The bytes `k mod 256` for `k = a .. a + n - 1` (R81). -/
def patternFrom (a n : Nat) : List Byte := (List.range n).map fun k => BitVec.ofNat 8 (a + k)

/-- The bytes an expression stands for (R81). DESIGN CHOICE (log 18): `pattern(a..b)` with `b < a`,
of which R81 does not speak, is a valid text and stands for the empty byte sequence. -/
def ByteExpr.bytes : ByteExpr → List Byte
  | .ascii text => text.map fun c => BitVec.ofNat 8 c.toNat
  | .hex bytes => bytes
  | .zeros n => List.replicate n 0
  | .pattern n => patternFrom 0 n
  | .patternRange a b => patternFrom a (b + 1 - a)

/-- `<sid>` of R81. -/
inductive SidRef where
  /-- "A name bound by an earlier INIT". -/
  | name (n : List Char)
  /-- "A literal `0x…` 64-bit value". -/
  | literal (v : SessionId)
  deriving DecidableEq, Repr

/-- A line of R81, or the pseudo-instruction of R82. -/
inductive AsmLine where
  | init (name : List Char)
  | update (sid : SidRef) (chunk : ByteExpr)
  | final (sid : SidRef)
  | permute (operand : ByteExpr)
  | hash (message : ByteExpr)
  deriving DecidableEq, Repr

/-- `HASH <bytes>` "expands to the three commands `t = INIT`, `UPDATE t, <bytes>`, `FINAL t`, with
`t` a fresh name" (R82). -/
def expandHash (t : List Char) : AsmLine → List AsmLine
  | .hash message => [.init t, .update (.name t) message, .final (.name t)]
  | .init name => [.init name]
  | .update sid chunk => [.update sid chunk]
  | .final sid => [.final sid]
  | .permute operand => [.permute operand]

/-- The id a reference stands for, given the ids that INIT responses bound (R81). DESIGN CHOICE
(log 18): of a name bound twice, the first entry of `bound` counts. -/
def SidRef.value (bound : List (List Char × SessionId)) : SidRef → Option SessionId
  | .name n => (bound.find? fun p => p.1 == n).map Prod.snd
  | .literal v => some v

/-- The command a line stands for (R81); none for an unbound name, an operand of PERMUTE that is not
200 bytes, and HASH, which is three commands. -/
def AsmLine.command (bound : List (List Char × SessionId)) : AsmLine → Option Instr
  | .init _ => some .init
  | .update sid chunk => (sid.value bound).map fun v => .update v chunk.bytes
  | .final sid => (sid.value bound).map fun v => .final v
  | .permute operand =>
    if operand.bytes.length = 200 then some (.permute operand.bytes) else none
  | .hash _ => none

/-- The commands HASH stands for once its INIT has returned `sid` (R82). -/
def hashCommands (sid : SessionId) (message : List Byte) : List Instr :=
  [.init, .update sid message, .final sid]

/-! ### The text -/

/-- A token of a line. -/
inductive Token where
  | word (text : List Char)
  | quoted (text : List Char)
  | hexQuoted (text : List Char)
  | comma
  | equals
  | lparen
  | rparen
  | dot
  deriving DecidableEq, Repr

/-- Where the lexer stands in a line. -/
inductive LexMode where
  | between
  | inWord (reversed : List Char)
  | inQuotes (isHex : Bool) (reversed : List Char)
  | inComment
  deriving DecidableEq, Repr

/-- A character of a name, a mnemonic or a number (log 18). -/
def wordChar (c : Char) : Bool := c.isAlphanum || c == '_'

/-- The double quote. -/
def quote : Char := Char.ofNat 34

/-- A character outside words and quotes, with the tokens so far, the latest first; `;` starts a
comment (R81). -/
def lexBetween (out : List Token) (c : Char) : Option (LexMode × List Token) :=
  if c = ';' then some (.inComment, out)
  else if c = ' ' ∨ c = '\t' then some (.between, out)
  else if c = ',' then some (.between, .comma :: out)
  else if c = '=' then some (.between, .equals :: out)
  else if c = '(' then some (.between, .lparen :: out)
  else if c = ')' then some (.between, .rparen :: out)
  else if c = '.' then some (.between, .dot :: out)
  else if c = quote then some (.inQuotes false [], out)
  else if wordChar c then some (.inWord [c], out)
  else none

/-- One character of a line. -/
def lexChar (at' : LexMode × List Token) (c : Char) : Option (LexMode × List Token) :=
  match at'.1 with
  | .inComment => some at'
  | .between => lexBetween at'.2 c
  | .inWord acc =>
    if wordChar c then some (.inWord (c :: acc), at'.2)
    else if c = quote then
      if acc = ['x'] then some (.inQuotes true [], at'.2) else none
    else lexBetween (.word acc.reverse :: at'.2) c
  | .inQuotes isHex acc =>
    if c = quote then
      some (.between, (if isHex then .hexQuoted acc.reverse else .quoted acc.reverse) :: at'.2)
    else some (.inQuotes isHex (c :: acc), at'.2)

/-- The tokens of a line. -/
def lexLine (line : List Char) : Option (List Token) :=
  match line.foldlM lexChar (.between, []) with
  | none => none
  | some (.inWord acc, out) => some (out.reverse ++ [.word acc.reverse])
  | some (.inQuotes _ _, _) => none
  | some (.between, out) => some out.reverse
  | some (.inComment, out) => some out.reverse

/-- The value of a digit, in a base of at most 16. -/
def digitValue (base : Nat) (c : Char) : Option Nat :=
  let v :=
    if '0' ≤ c ∧ c ≤ '9' then c.toNat - 48
    else if 'a' ≤ c ∧ c ≤ 'f' then c.toNat - 87
    else if 'A' ≤ c ∧ c ≤ 'F' then c.toNat - 55
    else 16
  if v < base then some v else none

/-- A number, at least one digit. -/
def parseNumber (base : Nat) (digits : List Char) : Option Nat :=
  if digits = [] then none
  else digits.foldlM (fun n c => (digitValue base c).map fun d => n * base + d) 0

/-- "Two hex digits per byte, first byte first" (R81). -/
def parseHexBytes : List Char → Option (List Byte)
  | [] => some []
  | [_] => none
  | a :: b :: rest =>
    match digitValue 16 a, digitValue 16 b, parseHexBytes rest with
    | some h, some l, some bytes => some (BitVec.ofNat 8 (16 * h + l) :: bytes)
    | _, _, _ => none

/-- `<bytes>` (R81). -/
def parseBytes : List Token → Option ByteExpr
  | [.quoted text] => if text.all (fun c => c.toNat < 128) then some (.ascii text) else none
  | [.hexQuoted text] => (parseHexBytes text).map .hex
  | [.word f, .lparen, .word n, .rparen] =>
    if f = ['z', 'e', 'r', 'o', 's'] then (parseNumber 10 n).map .zeros
    else if f = ['p', 'a', 't', 't', 'e', 'r', 'n'] then (parseNumber 10 n).map .pattern
    else none
  | [.word f, .lparen, .word a, .dot, .dot, .word b, .rparen] =>
    if f = ['p', 'a', 't', 't', 'e', 'r', 'n'] then
      match parseNumber 10 a, parseNumber 10 b with
      | some m, some n => some (.patternRange m n)
      | _, _ => none
    else none
  | _ => none

/-- `<sid>` (R81): a `0x…` literal that fits 64 bits, or a name. -/
def parseSid : List Char → Option SidRef
  | '0' :: 'x' :: digits =>
    match parseNumber 16 digits with
    | some n => if n < 2 ^ 64 then some (.literal (BitVec.ofNat 64 n)) else none
    | none => none
  | name => if (name.headD '0').isDigit then none else some (.name name)

/-- A line of text (R81, R82). DESIGN CHOICE (log 18): a line with nothing but blanks and a comment
is a valid text of no command, and an INIT that binds no name is no valid text. -/
def parseTokens : List Token → Option (List AsmLine)
  | [] => some []
  | [.word name, .equals, .word m] =>
    if m = ['I', 'N', 'I', 'T'] ∧ !(name.headD '0').isDigit then some [.init name] else none
  | .word m :: rest =>
    if m = ['U', 'P', 'D', 'A', 'T', 'E'] then
      match rest with
      | .word sid :: .comma :: bytes =>
        match parseSid sid, parseBytes bytes with
        | some v, some b => some [.update v b]
        | _, _ => none
      | _ => none
    else if m = ['F', 'I', 'N', 'A', 'L'] then
      match rest with
      | [.word sid] => (parseSid sid).map fun v => [.final v]
      | _ => none
    else if m = ['P', 'E', 'R', 'M', 'U', 'T', 'E'] then
      (parseBytes rest).map fun b => [.permute b]
    else if m = ['H', 'A', 'S', 'H'] then (parseBytes rest).map fun b => [.hash b]
    else none
  | _ => none

/-- A line of text. -/
def parseLine (line : List Char) : Option (List AsmLine) := (lexLine line).bind parseTokens

end Sys2Proof.Machine
end

