-- ==== Sys2Proof/Safety.lean ====
section
/-! DEFINITION. The terms the statements use: the invariant of the registry (R29), the end of a run
(R242), the single-shot digest (R35, R164), the streaming absorber (R142) and the generating rules of
the tables (R105, R109). No step uses any of it. -/

namespace Sys2Proof.Machine

/-- The canonical form of `sessions`: ids strictly rising, so that equal maps are equal lists. -/
abbrev RegistryWf (l : List (SessionId × Session)) : Prop := (l.map Prod.fst).Pairwise (· < ·)

/-- The canonical form of `issued`. -/
abbrev IssuedWf (l : List SessionId) : Prop := l.Pairwise (· < ·)

/-- A frame in flight holds bytes, and none beyond its `24 + W2` (R76). -/
def FrameWf (f : Frame) : Prop :=
  f.bytes ≠ [] ∧ ∀ n, frameLength f.bytes = some n → f.bytes.length ≤ n

/-- The registry invariants of R29, the canonical forms, and the framing of R76. -/
structure State.Inv (s : State) : Prop where
  /-- R9: `MAX_SESSIONS ≥ 1`. -/
  maxSessions_pos : 1 ≤ s.cfg.maxSessions
  sessions_wf : RegistryWf s.sessions
  issued_wf : IssuedWf s.issued
  /-- R29: `0 ∉ issued`. -/
  zero_not_issued : (0 : SessionId) ∉ s.issued
  /-- R29: `dom(sessions) ⊆ issued`. -/
  open_issued : ∀ sid r, findSession s.sessions sid = some r → sid ∈ s.issued
  /-- R29: `|dom(sessions)| ≤ MAX_SESSIONS`. -/
  open_limit : s.sessions.length ≤ s.cfg.maxSessions
  /-- R29: every open session satisfies `len(buf) ≤ 135`. -/
  buf_short : ∀ sid r, findSession s.sessions sid = some r → r.buf.length ≤ 135
  frames_wf : ∀ f ∈ s.port, FrameWf f

/-- "A run has ended when every command frame the hosts sent has its response" (R242); a fault ends
no run. DESIGN CHOICE (log 21): a frame that a reset dropped, which "never runs and gets no
response" (R232), is not waited for, and a run with a turn still listed has not ended. R242 says
neither. -/
def State.runEnded (s : State) : Prop := s.port = [] ∧ s.turns = []

/-- No whole frame in flight is stale, and no two frames in flight name one session that is open or
that an INIT could still open: the hosts keep R236 and R239 for what is in flight (log 6, log 7). -/
structure State.Answerable (s : State) : Prop where
  ids_current : ∀ f ∈ s.port, isWhole f.bytes = true → ∀ sid, sessionNamed f.bytes = some sid →
    s.epoch ≤ f.obtained
  names_apart : s.port.Pairwise fun f g => ∀ sid, sessionNamed f.bytes = some sid →
    sessionNamed g.bytes = some sid →
    findSession s.sessions sid = none ∧ (sid = 0 ∨ sid ∈ s.issued)

/-- The frame of a command in service is answered with `bytes`, and nothing else changes. -/
def State.answered (s : State) (bytes : List Byte) : State :=
  { s with
    port := s.port.tail
    responses := s.responses ++ [{ host := s.sender, bytes := bytes }] }

/-- Commands executed one after the other. -/
def execAll : List Instr → State → Host.Outcome State Fault Refusal
  | [], s => .next s
  | i :: is, s =>
    match exec i s with
    | .next t => execAll is t
    | .fault r => .fault r
    | .refused r => .refused r

/-- The outcome of a step with the state changed by `g`. -/
def mapNext (g : State → State) :
    Host.Outcome State Fault Refusal → Host.Outcome State Fault Refusal
  | .next t => .next (g t)
  | .fault r => .fault r
  | .refused r => .refused r

/-- The command names session `sid` (R36). -/
def namesSession (sid : SessionId) : Instr → Bool
  | .init => false
  | .update v _ => decide (v = sid)
  | .final v => decide (v = sid)
  | .permute _ => false

/-- The bytes that the UPDATEs naming `sid` carry, in order (R62). -/
def bytesFor (sid : SessionId) : List Instr → List Byte
  | [] => []
  | .update v chunk :: is => if v = sid then chunk ++ bytesFor sid is else bytesFor sid is
  | .init :: is => bytesFor sid is
  | .final _ :: is => bytesFor sid is
  | .permute _ :: is => bytesFor sid is

/-- Block `t` of a byte sequence: `P_t = M[136t .. 136t+135]` (R35). -/
def blockOf (M : List Byte) (t : Nat) : List Byte := (M.drop (136 * t)).take 136

/-- `S_k` from a given first state, `k = ⌊len(M) / 136⌋` (R35). -/
def absorbedState (A : Sponge) (M : List Byte) : Sponge :=
  (List.range (M.length / 136)).foldl (fun S t => absorbBlock S (blockOf M t)) A

/-- `drop(136k, M)` (R35). -/
def absorbedTail (M : List Byte) : List Byte := M.drop (136 * (M.length / 136))

/-- The digest of a whole message (R164): `Squeeze(KeccakF(S_k ⊕ Pad(drop(136k, M))))`. -/
def keccak256 (M : List Byte) : List Byte :=
  squeeze (keccakF (xorRate (absorbedState Sponge.zero M) (pad (absorbedTail M))))

/-- An absorber that "XORs each incoming byte directly into state byte `len(buf)`" (R142). -/
structure Stream where
  A : Sponge
  n : Nat
  deriving DecidableEq, Repr

/-- One incoming byte (R142). -/
def Stream.byte (st : Stream) (b : Byte) : Stream :=
  let A := memWrite st.A st.n (memRead st.A st.n ^^^ b)
  if st.n + 1 = 136 then { A := keccakF A, n := 0 } else { A := A, n := st.n + 1 }

/-- A chunk, byte by byte (R142). -/
def Stream.chunk (st : Stream) (bytes : List Byte) : Stream := bytes.foldl Stream.byte st

/-- Finalization of the streaming absorber: both pad bits are XORed into the state (R142, R160). -/
def Stream.digest (st : Stream) : List Byte :=
  let A := memWrite st.A st.n (memRead st.A st.n ^^^ 0x01)
  squeeze (keccakF (memWrite A 135 (memRead A 135 ^^^ 0x80)))

/-- The session record as the streaming absorber holds it: "the pending bytes are then held inside
the state instead of a separate buffer" (R142). -/
def Stream.ofSession (r : Session) : Stream :=
  { A := (List.range r.buf.length).foldl
      (fun A j => memWrite A j (memRead A j ^^^ r.buf.getD j 0)) r.A
    n := r.buf.length }

/-- `x^t mod (x^8 + x^6 + x^5 + x^4 + 1)` over GF(2), bit `k` the coefficient of `x^k` (R109). -/
def lfsr : Nat → BitVec 8
  | 0 => 1
  | t + 1 => (lfsr t <<< 1) ^^^ (if (lfsr t).getLsbD 7 then 0x71 else 0)

/-- The round constant of the generating rule (R109): bit `2^j - 1` is `rc(j + 7·ir)`. -/
def generatedConstant (ir : Nat) : Lane :=
  (List.range 7).foldl
    (fun w j => if (lfsr (j + 7 * ir)).getLsbD 0 then w ||| (1 <<< (2 ^ j - 1)) else w) 0

/-- The position `(x, y)` of the walk of R105 after `t` moves. -/
def rhoWalk : Nat → Nat × Nat
  | 0 => (1, 0)
  | t + 1 => ((rhoWalk t).2, (2 * (rhoWalk t).1 + 3 * (rhoWalk t).2) % 5)

end Sys2Proof.Machine
end

