-- ==== Sys2Proof/Certificates/Slice0/Obligations.lean ====
section
/-! DEFINITION. What is to be proved of the model: one definition for each entry of
OBLIGATIONS.json. -/

open Sys2Proof Sys2Proof.Machine

/-! ### Reset and the invariant -/

/-- R38: the registry after reset, and the fields of the record that INIT creates. -/
def Obligations.ResetHasNoSessionAndInitFieldsAreZero : Prop :=
  State.reset.sessions = [] ∧ State.reset.issued = [] ∧
    (∀ i < 25, Sponge.lane freshSession.A i = 0x0000000000000000) ∧
    freshSession.buf = [] ∧ freshSession.total = 0

/-- R230: the reset input empties the registry; no digest is emitted. -/
def Obligations.ResetInputEmptiesTheRegistry : Prop :=
  ∀ (s : State) (ts : List Turn), s.overlapping = false → s.turns = .reset :: ts →
    ∃ t, step s = .next t ∧ t.sessions = [] ∧ t.issued = [] ∧ t.responses = s.responses

/-- The model's reading of R232 (log 9): the frames in flight at a reset are gone; configuration,
coming turns and draws stay. -/
def Obligations.ResetInputDropsTheFramesInFlight : Prop :=
  ∀ (s : State) (ts : List Turn), s.overlapping = false → s.turns = .reset :: ts →
    ∃ t, step s = .next t ∧ t.port = [] ∧ t.epoch = s.epoch + 1 ∧ t.cfg = s.cfg ∧
      t.turns = ts ∧ t.draws = s.draws ∧ t.freeCount = s.freeCount

/-- The invariant holds after reset (R29). -/
def Obligations.ResetMeetsTheRegistryInvariant : Prop := State.reset.Inv

/-- R29 as an inductive invariant: every step keeps it. -/
def Obligations.EveryStepKeepsTheRegistryInvariant : Prop :=
  ∀ s t : State, s.Inv → step s = .next t → t.Inv

/-- R32, R37: no step changes the configuration. -/
def Obligations.NoStepChangesTheConfiguration : Prop :=
  ∀ s t : State, step s = .next t → t.cfg = s.cfg

/-! ### INIT -/

/-- R181: below the limit INIT opens one zeroed session under a fresh nonzero id and changes nothing
else but the model's own draw fields (log 3). -/
def Obligations.InitOpensOneFreshZeroedSession : Prop :=
  ∀ s : State, s.Inv → s.sessions.length < s.cfg.maxSessions →
    (∃ v : SessionId, v ≠ 0 ∧ v ∉ s.issued) →
    ∃ sid t, exec .init s = .next t ∧ sid ≠ 0 ∧ sid ∉ s.issued ∧
      findSession t.sessions sid = some { A := Sponge.zero, buf := [], total := 0 } ∧
      (∀ v, v ≠ sid → findSession t.sessions v = findSession s.sessions v) ∧
      RegistryWf t.sessions ∧
      (∀ v, v ∈ t.issued ↔ v = sid ∨ v ∈ s.issued) ∧ IssuedWf t.issued ∧
      t = { s with
            sessions := t.sessions
            issued := t.issued
            port := s.port.tail
            responses := s.responses ++
              [{ host := s.sender
                 bytes := [0x00, 0x01, 0, 0, 0, 0, 0, 0] ++ bytesOfU64 sid }]
            draws := s.draws.tail
            freeCount := s.freeCount + 1 }

/-- With at least `MAX_SESSIONS` sessions open, or with no fresh id left, INIT answers
`SessionLimitError` and changes nothing; it consumes no id. R181 and R205 say so of exactly
`MAX_SESSIONS` open sessions; that INIT refuses above that number too, which R29 rules out, is the
model's choice (log 16). -/
def Obligations.InitAtTheLimitChangesNothing : Prop :=
  ∀ s : State,
    (s.cfg.maxSessions ≤ s.sessions.length ∨ ∀ v : SessionId, v ≠ 0 → v ∈ s.issued) →
    exec .init s = .next (s.answered [0x05, 0x01, 0, 0, 0, 0, 0, 0])

/-- R183, U4: every fresh value is a possible draw (log 3: through the model's field `draws`). -/
def Obligations.InitCanDrawEveryFreshId : Prop :=
  ∀ (s : State) (v : SessionId), s.sessions.length < s.cfg.maxSessions → v ≠ 0 → v ∉ s.issued →
    ∃ draws t, exec .init { s with draws := draws } = .next t ∧
      findSession t.sessions v = some freshSession ∧ v ∈ t.issued ∧
      t.responses = s.responses ++
        [{ host := s.sender, bytes := [0x00, 0x01, 0, 0, 0, 0, 0, 0] ++ bytesOfU64 v }]

/-! ### UPDATE and FINAL -/

/-- R141, R143: UPDATE on an open session absorbs exactly the full blocks of `buf ++ chunk`, in
order, buffers the rest, counts the bytes modulo 2^64, and changes nothing else. -/
def Obligations.UpdateAbsorbsTheChunk : Prop :=
  ∀ (s : State) (sid : SessionId) (r : Session) (chunk : List Byte), s.Inv →
    findSession s.sessions sid = some r →
    ∃ t, exec (.update sid chunk) s = .next t ∧
      findSession t.sessions sid = some
        { A := absorbedState r.A (r.buf ++ chunk)
          buf := absorbedTail (r.buf ++ chunk)
          total := r.total + BitVec.ofNat 64 chunk.length } ∧
      (∀ v, v ≠ sid → findSession t.sessions v = findSession s.sessions v) ∧
      t.sessions.map Prod.fst = s.sessions.map Prod.fst ∧
      t = { s with
            sessions := t.sessions
            port := s.port.tail
            responses := s.responses ++
              [{ host := s.sender, bytes := [0x00, 0x02, 0, 0, 0, 0, 0, 0] }] }

/-- R182, R201, R202: an id that is not open, and the error each of the two policies gives. -/
def Obligations.ClosedIdGetsTheLookupError : Prop :=
  ∀ (s : State) (sid : SessionId) (chunk : List Byte), findSession s.sessions sid = none →
    let code : Byte :=
      if sid ∈ s.issued ∧ s.cfg.retiredIdError = .sessionFinalized then 0x02 else 0x01
    exec (.update sid chunk) s = .next (s.answered [code, 0x02, 0, 0, 0, 0, 0, 0]) ∧
      exec (.final sid) s = .next (s.answered [code, 0x03, 0, 0, 0, 0, 0, 0])

/-- R162: FINAL answers the digest of the padded block after exactly one permutation, removes the
session, keeps `issued`, and changes nothing else. -/
def Obligations.FinalReturnsTheDigestAndRetires : Prop :=
  ∀ (s : State) (sid : SessionId) (r : Session), s.Inv →
    findSession s.sessions sid = some r → (s.cfg.allowEmptyFinal = true ∨ r.total ≠ 0) →
    ∃ t, exec (.final sid) s = .next t ∧
      findSession t.sessions sid = none ∧ sid ∈ t.issued ∧
      (∀ v, v ≠ sid → findSession t.sessions v = findSession s.sessions v) ∧
      RegistryWf t.sessions ∧
      t = { s with
            sessions := t.sessions
            port := s.port.tail
            responses := s.responses ++
              [{ host := s.sender
                 bytes := [0x00, 0x03, 0, 0, 0, 0, 0, 0] ++
                   memReadN (keccakF (xorRate r.A (pad r.buf))) 0 32 }] }

/-- R163, R203: the empty-finalization policy refuses a session that absorbed no byte, and retires
it. -/
def Obligations.EmptyFinalIsRefusedAndRetires : Prop :=
  ∀ (s : State) (sid : SessionId) (r : Session), s.Inv →
    findSession s.sessions sid = some r → s.cfg.allowEmptyFinal = false → r.total = 0 →
    ∃ t, exec (.final sid) s = .next t ∧
      findSession t.sessions sid = none ∧ sid ∈ t.issued ∧
      (∀ v, v ≠ sid → findSession t.sessions v = findSession s.sessions v) ∧
      t = { s with
            sessions := t.sessions
            port := s.port.tail
            responses := s.responses ++
              [{ host := s.sender, bytes := [0x03, 0x03, 0, 0, 0, 0, 0, 0] }] }

/-- R27: the byte counter reaches no digest. -/
def Obligations.ByteCounterReachesNoDigest : Prop :=
  ∀ (s : State) (sid : SessionId) (A : Sponge) (buf : List Byte) (m n : U64),
    s.cfg.allowEmptyFinal = true →
    ∃ t u,
      exec (.final sid) { s with sessions := putSession sid ⟨A, buf, m⟩ s.sessions } = .next t ∧
      exec (.final sid) { s with sessions := putSession sid ⟨A, buf, n⟩ s.sessions } = .next u ∧
      t.responses = u.responses

/-- R144: two UPDATEs leave the registry that one UPDATE with the chunks joined leaves. -/
def Obligations.TwoUpdatesAreOneUpdateOfTheJoin : Prop :=
  ∀ (s : State) (sid : SessionId) (c d : List Byte), ∃ t t1 t2,
    exec (.update sid (c ++ d)) s = .next t ∧
    exec (.update sid c) s = .next t1 ∧ exec (.update sid d) t1 = .next t2 ∧
    t2.sessions = t.sessions ∧ t2.issued = t.issued

/-- R164, with R62, R63 and R186: whatever commands on other sessions fall between them, the digest
of a session is Keccak-256 of the bytes its own UPDATEs carried, in order. -/
def Obligations.DigestIsKeccak256OfTheConcatenation : Prop :=
  ∀ (s : State) (sid : SessionId) (cmds : List Instr), s.Inv →
    findSession s.sessions sid = some freshSession → (∀ i ∈ cmds, i ≠ .final sid) →
    (s.cfg.allowEmptyFinal = true ∨ BitVec.ofNat 64 (bytesFor sid cmds).length ≠ 0) →
    ∃ t u, execAll cmds s = .next t ∧ exec (.final sid) t = .next u ∧
      u.responses = t.responses ++
        [{ host := t.sender
           bytes := [0x00, 0x03, 0, 0, 0, 0, 0, 0] ++ keccak256 (bytesFor sid cmds) }] ∧
      findSession u.sessions sid = none ∧ sid ∈ u.issued

/-- R142: the streaming absorber holds the same state after every chunk and gives the same
digest. -/
def Obligations.StreamingAbsorberGivesTheSameDigest : Prop :=
  ∀ (r : Session) (chunk : List Byte), r.buf.length ≤ 135 →
    Stream.chunk (Stream.ofSession r) chunk = Stream.ofSession (absorbChunk r chunk) ∧
      Stream.digest (Stream.ofSession r) = digestOf r

/-- R82: the three commands of HASH give Keccak-256 of the message and leave no session open. -/
def Obligations.HashCommandsGiveKeccak256 : Prop :=
  ∀ (s : State) (message : List Byte), s.Inv → s.sessions.length < s.cfg.maxSessions →
    (∃ v : SessionId, v ≠ 0 ∧ v ∉ s.issued) → s.cfg.allowEmptyFinal = true →
    ∃ sid u r1 r2 r3, execAll (hashCommands sid message) s = .next u ∧
      u.responses = s.responses ++ [r1, r2, r3] ∧
      r1.bytes = [0x00, 0x01, 0, 0, 0, 0, 0, 0] ++ bytesOfU64 sid ∧
      r2.bytes = [0x00, 0x02, 0, 0, 0, 0, 0, 0] ∧
      r3.bytes = [0x00, 0x03, 0, 0, 0, 0, 0, 0] ++ keccak256 message ∧
      u.sessions = s.sessions

/-! ### PERMUTE -/

/-- R113: PERMUTE answers the 200 bytes of the permuted operand and changes nothing. -/
def Obligations.PermuteReturnsThePermutedState : Prop :=
  ∀ (s : State) (operand : List Byte),
    exec (.permute operand) s = .next (s.answered
      ([0x00, 0x04, 0, 0, 0, 0, 0, 0] ++ memReadN (keccakF (lanesOf operand)) 0 200))

/-! ### Isolation and errors -/

/-- R36: a command leaves the record of every session it does not name as it is. -/
def Obligations.CommandsLeaveOtherSessionsAlone : Prop :=
  ∀ (s t : State) (i : Instr) (sid : SessionId), sid ∈ s.issued →
    namesSession sid i = false → exec i s = .next t →
    findSession t.sessions sid = findSession s.sessions sid

/-- R36, R63: the response to UPDATE or FINAL, and the record it leaves, depend on the named session
(and the configuration) only. -/
def Obligations.OutcomeDependsOnTheNamedSessionOnly : Prop :=
  ∀ (s1 s2 t1 t2 : State) (i : Instr) (sid : SessionId),
    RegistryWf s1.sessions → RegistryWf s2.sessions →
    namesSession sid i = true → s1.cfg = s2.cfg →
    findSession s1.sessions sid = findSession s2.sessions sid →
    (sid ∈ s1.issued ↔ sid ∈ s2.issued) → s1.sender = s2.sender →
    exec i s1 = .next t1 → exec i s2 = .next t2 →
    t1.responses.getLast? = t2.responses.getLast? ∧
      findSession t1.sessions sid = findSession t2.sessions sid ∧
      (sid ∈ t1.issued ↔ sid ∈ t2.issued)

/-- R63: UPDATEs and FINALs on different sessions leave the same registry in either order, and each
gets the same response bytes. -/
def Obligations.CommandsOnDifferentSessionsCommute : Prop :=
  ∀ (s : State) (i j : Instr) (a b : SessionId), s.Inv → a ≠ b →
    namesSession a i = true → namesSession b j = true →
    ∃ si sj t u, exec i s = .next si ∧ exec j si = .next t ∧
      exec j s = .next sj ∧ exec i sj = .next u ∧
      t.sessions = u.sessions ∧ t.issued = u.issued ∧
      si.responses.getLast?.map Response.bytes = u.responses.getLast?.map Response.bytes ∧
      sj.responses.getLast?.map Response.bytes = t.responses.getLast?.map Response.bytes

/-- R207: an error answers the frame `f` taken out of `port` with 8 bytes and leaves `issued` and
every session as they are, but that `EmptySessionError` retires the session that `f` names. STATUS
`0x03` is answered exactly to a FINAL of an open session with `total = 0` under
`ALLOW_EMPTY_FINAL = false`. -/
def Obligations.ErrorsChangeNoSession : Prop :=
  ∀ (s t : State) (r : Response), step s = .next t → t.responses = s.responses ++ [r] →
    r.bytes.head? ≠ some 0x00 →
    r.bytes.length = 8 ∧
      ∃ k f, s.port[k]? = some f ∧ r.host = f.host ∧
        t = { s with
              sessions := t.sessions
              port := s.port.eraseIdx k
              turns := s.turns.tail
              responses := s.responses ++ [r]
              freeCount := t.freeCount } ∧
        (r.bytes.head? = some 0x03 ↔ ∃ sid q, decode f.bytes = .ok (.final sid) ∧
          findSession s.sessions sid = some q ∧ s.cfg.allowEmptyFinal = false ∧ q.total = 0) ∧
        (r.bytes.head? = some 0x03 → ∃ sid, sessionNamed f.bytes = some sid ∧
          t.sessions = dropSession sid s.sessions) ∧
        (r.bytes.head? ≠ some 0x03 → t.sessions = s.sessions)

/-- R77, R78: every response a step emits answers one whole frame `f`, which leaves `port`, goes to
its sender, copies its `W0[7:0]`, and has the form of R77; its status is none of the reserved
codes. -/
def Obligations.ResponsesHaveTheirForm : Prop :=
  ∀ (s t : State) (r : Response), step s = .next t → t.responses = s.responses ++ [r] →
    ∃ (k : Nat) (f : Frame) (status : Byte) (payload : List Byte),
      s.port[k]? = some f ∧ isWhole f.bytes = true ∧ t.port = s.port.eraseIdx k ∧
      r.host = f.host ∧
      r.bytes = [status, opcodeByte f.bytes, 0, 0, 0, 0, 0, 0] ++ payload ∧ status.toNat ≤ 5 ∧
      (status ≠ 0x00 → payload = []) ∧
      (status = 0x00 →
        (opcodeByte f.bytes = 0x01 ∧ payload.length = 8) ∨
        (opcodeByte f.bytes = 0x02 ∧ payload = []) ∨
        (opcodeByte f.bytes = 0x03 ∧ payload.length = 32) ∨
        (opcodeByte f.bytes = 0x04 ∧ payload.length = 200))

/-- R60, R65, R230: a step that changes the registry answers one command, or is the reset. -/
def Obligations.RegistryChangesOnlyWithAResponse : Prop :=
  ∀ s t : State, step s = .next t →
    (∃ r, t.responses = s.responses ++ [r] ∧ t.port.length + 1 = s.port.length) ∨
      (t.responses = s.responses ∧
        ((t.sessions = s.sessions ∧ t.issued = s.issued) ∨ ∃ ts, s.turns = .reset :: ts))

/-- R183: but for a reset, an issued id stays issued, and one that is not open never opens
again. -/
def Obligations.IssuedIdsAreNeverReopened : Prop :=
  ∀ (s t : State) (v : SessionId), step s = .next t → (∀ ts, s.turns ≠ .reset :: ts) →
    v ∈ s.issued →
    v ∈ t.issued ∧ (findSession s.sessions v = none → findSession t.sessions v = none)

/-- R31, R242: no step reads the responses emitted so far. -/
def Obligations.EmittedResponsesAreNeverRead : Prop :=
  ∀ (s : State) (rs : List Response),
    step { s with responses := rs ++ s.responses } =
      mapNext (fun t => { t with responses := rs ++ t.responses }) (step s)

/-! ### The step and the frames in flight -/

/-- When the engine takes a frame that decodes to a command, the step is that command's execution,
with the frame first among those in flight. -/
def Obligations.StepExecutesTheDecodedCommand : Prop :=
  ∀ (s : State) (ts : List Turn) (k : Nat) (f : Frame) (i : Instr), s.overlapping = false →
    s.turns = .serve k :: ts → s.port[k]? = some f → decode f.bytes = .ok i →
    staleUse s.epoch f.obtained i = false →
    step s = exec i { s with turns := ts, port := f :: s.port.eraseIdx k }

/-- With no turn listed, the step is the engine's turn on some wholly delivered frame (R20, R64;
which one is free, log 4). -/
def Obligations.StepWithoutATurnServesSomeWholeFrame : Prop :=
  ∀ s : State, s.overlapping = false → s.turns = [] → (∃ f ∈ s.port, isWhole f.bytes = true) →
    ∃ k f n, s.port[k]? = some f ∧ isWhole f.bytes = true ∧
      s.freeCount ≤ n ∧ n ≤ s.freeCount + 1 ∧
      step s = step { s with turns := [.serve k], freeCount := n }

/-- R79, R204: a whole frame that is no command gets `IllegalCommandError`, with the frame's own
opcode byte, and nothing else changes. -/
def Obligations.IllegalFrameIsAnsweredOnly : Prop :=
  ∀ (s : State) (ts : List Turn) (k : Nat) (f : Frame), s.overlapping = false →
    s.turns = .serve k :: ts → s.port[k]? = some f → isWhole f.bytes = true →
    (∀ i, decode f.bytes ≠ .ok i) →
    step s = .next { s with
      turns := ts
      port := s.port.eraseIdx k
      responses := s.responses ++
        [{ host := f.host, bytes := [0x04, opcodeByte f.bytes, 0, 0, 0, 0, 0, 0] }] }

/-- R76, R238: a partly delivered frame leaves the engine waiting, with no response (log 8). -/
def Obligations.PartlyDeliveredFrameWaits : Prop :=
  ∀ (s : State) (ts : List Turn) (k : Nat) (f : Frame), s.overlapping = false →
    s.turns = .serve k :: ts → s.port[k]? = some f → isWhole f.bytes = false →
    step s = .next { s with turns := ts }

/-- R217, R238: with no whole frame in flight and no turn listed, everything is kept. -/
def Obligations.IdleEngineKeepsEverything : Prop :=
  ∀ s : State, s.overlapping = false → s.turns = [] → (∀ f ∈ s.port, isWhole f.bytes = false) →
    step s = .next s

/-- R76: a frame delivered in two pieces is the frame delivered at once. -/
def Obligations.FrameInTwoPiecesIsTheFrame : Prop :=
  ∀ (s : State) (host obtained : Nat) (bytes : List Byte) (n : Nat),
    frameLength bytes = some bytes.length → 0 < n → n < bytes.length →
    State.landMore (s.landSend host obtained (bytes.take n)) s.port.length (bytes.drop n) =
      s.landSend host obtained bytes

/-- R236, U1 (log 7: a session is one that is open): the overlap fault, exactly when two frames in
flight name one open session. -/
def Obligations.OverlapFaultsExactlyOnTwoFramesOfOneSession : Prop :=
  ∀ s : State, step s = .fault .sameSessionOverlap ↔
    ∃ (m n : Nat) (f g : Frame) (sid : SessionId) (r : Session), m < n ∧
      s.port[m]? = some f ∧ s.port[n]? = some g ∧
      sessionNamed f.bytes = some sid ∧ sessionNamed g.bytes = some sid ∧
      findSession s.sessions sid = some r

/-- R239, U7 (log 6): a command that names an id obtained before the last reset is a fault. -/
def Obligations.StaleIdIsAFault : Prop :=
  ∀ (s : State) (ts : List Turn) (k : Nat) (f : Frame) (i : Instr) (sid : SessionId),
    s.overlapping = false → s.turns = .serve k :: ts → s.port[k]? = some f →
    decode f.bytes = .ok i → namesSession sid i = true → f.obtained < s.epoch →
    step s = .fault .staleSessionId

/-- R200: the engine itself never stops; a step faults only where a host broke R236 or R239, and
refuses nothing. -/
def Obligations.OnlyHostMisuseStopsTheMachine : Prop :=
  ∀ s : State, (∀ r, step s ≠ .refused r) ∧
    ∀ φ, step s = .fault φ →
      (φ = .sameSessionOverlap ∧ s.overlapping = true) ∨
        (φ = .staleSessionId ∧ ∃ f ∈ s.port, f.obtained < s.epoch ∧
          ∃ sid, sessionNamed f.bytes = some sid)

/-- With no turn listed, from a state that meets State.Answerable, as many steps as there are whole
frames in flight answer each of them to its host, in some order, and leave the partly delivered
frames; with none of those, the run has ended. This is R241's liveness in the model's terms: its
time is steps (log 17, DEDUCED), and with no turn listed the engine moves (log 4). The premise leaves
out two frames that name one open session, or one that an INIT could still open (the fault of R236,
log 7), a whole frame with a stale id (the fault of R239, log 6), and listed turns, of which
ServingStepsAnswerOneFrameAndStayAnswerable states the engine's. -/
def Obligations.EveryWholeFrameIsAnswered : Prop :=
  ∀ s : State, s.turns = [] → s.Answerable →
    ∃ (t : State) (rs : List Response),
      Host.Core.run Sys2Proof.core (s.port.filter fun f => isWhole f.bytes).length s = .next t ∧
      t.responses = s.responses ++ rs ∧
      (rs.map Response.host).Perm
        ((s.port.filter fun f => isWhole f.bytes).map Frame.host) ∧
      t.port = s.port.filter (fun f => !isWhole f.bytes) ∧
      ((∀ f ∈ s.port, isWhole f.bytes = true) → t.runEnded)

/-- From every state that meets State.Answerable, a step that is the engine's turn on a whole frame,
listed, or of the engine's own choice with none listed (log 4), answers that one frame to its host
and leaves a state that meets State.Answerable. -/
def Obligations.ServingStepsAnswerOneFrameAndStayAnswerable : Prop :=
  ∀ s : State, s.Answerable →
    (∀ ts k f, s.turns = .serve k :: ts → s.port[k]? = some f → isWhole f.bytes = true →
      ∃ t bytes, step s = .next t ∧ t.turns = ts ∧ t.port = s.port.eraseIdx k ∧
        t.responses = s.responses ++ [{ host := f.host, bytes := bytes }] ∧ t.Answerable) ∧
    (s.turns = [] → (∃ f ∈ s.port, isWhole f.bytes = true) →
      ∃ k f t bytes, s.port[k]? = some f ∧ isWhole f.bytes = true ∧
        step s = .next t ∧ t.turns = [] ∧ t.port = s.port.eraseIdx k ∧
        t.responses = s.responses ++ [{ host := f.host, bytes := bytes }] ∧ t.Answerable)

/-- A host's turn to send: the frames of its bytes (R76) join the frames in flight behind the others
(log 13), and nothing else changes. -/
def Obligations.SendTurnAddsTheFramesOfItsBytes : Prop :=
  ∀ (s : State) (ts : List Turn) (host obtained : Nat) (bytes : List Byte),
    s.overlapping = false → s.turns = .send host obtained bytes :: ts →
    step s = .next { s with turns := ts, port := s.port ++ framesFrom host obtained bytes }

/-- A host's turn to go on sending (R238): the bytes go on where the `k`-th frame in flight stopped, a
surplus is the next frame of the same host (log 13), and nothing else changes; with no such frame in
flight, nothing changes. -/
def Obligations.MoreTurnContinuesOneFrame : Prop :=
  ∀ (s : State) (ts : List Turn) (k : Nat) (bytes : List Byte),
    s.overlapping = false → s.turns = .more k bytes :: ts →
    (∀ f, s.port[k]? = some f → step s = .next { s with
      turns := ts
      port := s.port.take k ++ framesFrom f.host f.obtained (f.bytes ++ bytes) ++
        s.port.drop (k + 1) }) ∧
    (s.port[k]? = none → step s = .next { s with turns := ts })

/-- R76: delivered bytes are cut into frames with no byte lost, moved or added; each frame keeps
within its `24 + W2` bytes, and every one but the last is whole and exactly that long. -/
def Obligations.SentBytesAreCutIntoFrames : Prop :=
  ∀ (host obtained : Nat) (bytes : List Byte),
    (framesFrom host obtained bytes).flatMap Frame.bytes = bytes ∧
      (∀ f ∈ framesFrom host obtained bytes,
        FrameWf f ∧ f.host = host ∧ f.obtained = obtained) ∧
      ∀ f ∈ (framesFrom host obtained bytes).dropLast,
        isWhole f.bytes = true ∧ frameLength f.bytes = some f.bytes.length

/-! ### Encoding -/

/-- Decoding an encoded command gives it back, whatever bytes follow. -/
def Obligations.DecodeReadsBackEveryEncodedCommand : Prop :=
  ∀ (i : Instr) (rest : List Byte), i.wf = true → decode (encode i ++ rest) = .ok i

/-- A frame that decodes to a command is that command's encoding, byte for byte. -/
def Obligations.DecodedFrameIsTheEncoding : Prop :=
  ∀ (bytes : List Byte) (i : Instr), decode bytes = .ok i →
    i.wf = true ∧ ∃ rest, bytes = encode i ++ rest

/-- R73, R74, R79, R80: a whole frame is a command exactly when `RSV` is zero, `OPC` is one of the
four, and its constraint holds. -/
def Obligations.DecoderAcceptsExactlyTheOpcodeMap : Prop :=
  ∀ (bytes : List Byte) (h : Header), headerOf bytes = some h → isWhole bytes = true →
    ((∃ i, decode bytes = .ok i) ↔
      h.rsv = 0 ∧
        ((h.opc = 0x01 ∧ h.w1 = 0 ∧ h.w2 = 0) ∨ h.opc = 0x02 ∨ (h.opc = 0x03 ∧ h.w2 = 0) ∨
          (h.opc = 0x04 ∧ h.w1 = 0 ∧ h.w2 = 200)))

/-- R83: the spec's encoding examples. -/
def Obligations.SpecExamplesAreTheFrames : Prop :=
  encode .init =
      [0x01, 0, 0, 0, 0, 0, 0, 0, 0, 0, 0, 0, 0, 0, 0, 0, 0, 0, 0, 0, 0, 0, 0, 0] ∧
    encode (.update 0x1234 [0x61, 0x62, 0x63]) =
      [0x02, 0, 0, 0, 0, 0, 0, 0, 0x34, 0x12, 0, 0, 0, 0, 0, 0, 0x03, 0, 0, 0, 0, 0, 0, 0,
        0x61, 0x62, 0x63] ∧
    encode (.final 0x1234) =
      [0x03, 0, 0, 0, 0, 0, 0, 0, 0x34, 0x12, 0, 0, 0, 0, 0, 0, 0, 0, 0, 0, 0, 0, 0, 0] ∧
    encode (.permute (List.replicate 200 0)) =
      [0x04, 0, 0, 0, 0, 0, 0, 0, 0, 0, 0, 0, 0, 0, 0, 0, 0xC8, 0, 0, 0, 0, 0, 0, 0] ++
        List.replicate 200 0 ∧
    responseBytes .ok 0x01 (bytesOfU64 0x1234) =
      [0x00, 0x01, 0, 0, 0, 0, 0, 0, 0x34, 0x12, 0, 0, 0, 0, 0, 0] ∧
    responseBytes .unknownSession 0x03 [] = [0x01, 0x03, 0, 0, 0, 0, 0, 0] ∧
    decode ([0x05, 0, 0, 0, 0, 0, 0, 0] ++ List.replicate 16 0) = .error .reservedOpcode ∧
    responseBytes .illegalCommand 0x05 [] = [0x04, 0x05, 0, 0, 0, 0, 0, 0]

/-! ### The permutation, the byte view and the padding -/

/-- R112: each step is invertible, and `KeccakF` is a bijection. Of ι this is said for every number
`ir`; for 24 and above, where R109 has no constant, the model's is 0 (log 15). -/
def Obligations.KeccakFIsABijection : Prop :=
  Function.Bijective theta ∧ Function.Bijective rho ∧ Function.Bijective pi ∧
    Function.Bijective chi ∧ (∀ ir, Function.Bijective fun A => iota A ir) ∧
    Function.Bijective keccakF

/-- R140: the block is XORed into bytes 0 to 135, which is the XOR of 17 lanes; the capacity is not
touched; then the state is permuted. -/
def Obligations.AbsorbBlockXorsTheRateAndPermutes : Prop :=
  ∀ (A : Sponge) (P : List Byte), P.length = 136 →
    ∃ B : Sponge, absorbBlock A P = keccakF B ∧
      (∀ j < 200, memRead B j = if j < 136 then memRead A j ^^^ P.getD j 0 else memRead A j) ∧
      (∀ i < 25, Sponge.lane B i =
        if i < 17 then Sponge.lane A i ^^^ u64OfBytes ((P.drop (8 * i)).take 8)
        else Sponge.lane A i)

/-- R106: π moves whole lanes, by either of its forms and by the table of source lanes. -/
def Obligations.PiMovesWholeLanes : Prop :=
  ∀ A : Sponge,
    (∀ x < 5, ∀ y < 5, Sponge.at (pi A) y (2 * x + 3 * y) = Sponge.at A x y) ∧
    (∀ X < 5, ∀ Y < 5, Sponge.at (pi A) X Y = Sponge.at A (X + 3 * Y) X) ∧
    ∀ i < 25, Sponge.lane (pi A) i = Sponge.lane A
      ([0, 6, 12, 18, 24, 3, 9, 10, 16, 22, 1, 7, 13, 19, 20, 4, 5, 11, 17, 23, 2, 8, 14, 15,
        21].getD i 0)

/-- R103, R107, R108: the fixed points the spec states, and round 0 of the zero state. -/
def Obligations.RoundStepsKeepZeroAndOnes : Prop :=
  let ones : Sponge := Sponge.build fun _ _ => 0xFFFFFFFFFFFFFFFF
  theta Sponge.zero = Sponge.zero ∧ rho Sponge.zero = Sponge.zero ∧
    pi Sponge.zero = Sponge.zero ∧ chi Sponge.zero = Sponge.zero ∧
    theta ones = ones ∧ chi ones = ones ∧
    rnd Sponge.zero 0 = Sponge.build fun x y => if x = 0 ∧ y = 0 then 1 else 0

/-- R11: a left rotation moves bit `i` to bit `(i + n) mod 64`. -/
def Obligations.RotationMovesEveryBit : Prop :=
  ∀ (a : Lane) (n i : Nat), n < 64 → i < 64 →
    (rotl64 a n).getLsbD ((i + n) % 64) = a.getLsbD i

/-- R105, R109: the tables meet their generating rules. -/
def Obligations.TablesFollowTheirGeneratingRules : Prop :=
  (∀ ir < 24, roundConstant ir = generatedConstant ir) ∧ rotationOffset 0 0 = 0 ∧
    ∀ t < 24, rotationOffset (rhoWalk t).1 (rhoWalk t).2 = ((t + 1) * (t + 2) / 2) % 64

/-- R23: the byte view and the lanes hold the same thing. -/
def Obligations.BytesAndLanesAreInverse : Prop :=
  (∀ A : Sponge, lanesOf (bytesOf A) = A) ∧
    ∀ bytes : List Byte, bytes.length = 200 → bytesOf (lanesOf bytes) = bytes

/-- R23: `MemWrite` changes one byte of the view and keeps the others. -/
def Obligations.MemWriteChangesOneByte : Prop :=
  ∀ (A : Sponge) (v : Byte) (j k : Nat), j < 200 → k < 200 →
    memRead (memWrite A j v) k = if k = j then v else memRead A k

/-- R160: every byte of the padded block, by case. -/
def Obligations.PadWritesEveryByte : Prop :=
  ∀ buf : List Byte, buf.length ≤ 135 →
    (pad buf).length = 136 ∧
      ∀ j < 136, (pad buf)[j]? = some (
        if j < buf.length then buf.getD j 0
        else if j = buf.length then (if j = 135 then 0x81 else 0x01)
        else if j = 135 then 0x80 else 0x00)

/-- Different pending buffers give different padded blocks. -/
def Obligations.PadIsInjective : Prop :=
  ∀ b c : List Byte, b.length ≤ 135 → c.length ≤ 135 → pad b = pad c → b = c
end

