-- ==== Sys2Proof/Laws/State.lean ====
section
/-! SUPPORT. One lemma for each field that an update of the state sets or leaves, and one for each
arm of `exec`, so that no later proof unfolds a record. -/

namespace Sys2Proof.Machine

section respond
variable (s : State) (st : Status) (op : Byte) (payload : List Byte)

@[simp] theorem State.respond_cfg : (s.respond st op payload).cfg = s.cfg := rfl
@[simp] theorem State.respond_sessions : (s.respond st op payload).sessions = s.sessions := rfl
@[simp] theorem State.respond_issued : (s.respond st op payload).issued = s.issued := rfl
@[simp] theorem State.respond_port : (s.respond st op payload).port = s.port.tail := rfl
@[simp] theorem State.respond_turns : (s.respond st op payload).turns = s.turns := rfl
@[simp] theorem State.respond_responses : (s.respond st op payload).responses =
    s.responses ++ [{ host := s.sender, bytes := responseBytes st op payload }] := rfl
@[simp] theorem State.respond_draws : (s.respond st op payload).draws = s.draws := rfl
@[simp] theorem State.respond_freeCount : (s.respond st op payload).freeCount = s.freeCount := rfl
@[simp] theorem State.respond_epoch : (s.respond st op payload).epoch = s.epoch := rfl

/-- Taking an exception is a response with no payload, and nothing else. -/
theorem State.raise_eq_respond : s.raise st op = s.respond st op [] := rfl

theorem State.respond_eq_answered :
    s.respond st op payload = s.answered (responseBytes st op payload) := rfl
end respond

section answered
variable (s : State) (bytes : List Byte)

@[simp] theorem State.answered_cfg : (s.answered bytes).cfg = s.cfg := rfl
@[simp] theorem State.answered_sessions : (s.answered bytes).sessions = s.sessions := rfl
@[simp] theorem State.answered_issued : (s.answered bytes).issued = s.issued := rfl
@[simp] theorem State.answered_port : (s.answered bytes).port = s.port.tail := rfl
@[simp] theorem State.answered_turns : (s.answered bytes).turns = s.turns := rfl
@[simp] theorem State.answered_responses :
    (s.answered bytes).responses = s.responses ++ [{ host := s.sender, bytes := bytes }] := rfl
@[simp] theorem State.answered_draws : (s.answered bytes).draws = s.draws := rfl
@[simp] theorem State.answered_freeCount : (s.answered bytes).freeCount = s.freeCount := rfl
@[simp] theorem State.answered_epoch : (s.answered bytes).epoch = s.epoch := rfl
end answered

section openSession
variable (s : State) (sid : SessionId)

@[simp] theorem State.openSession_cfg : (s.openSession sid).cfg = s.cfg := rfl
@[simp] theorem State.openSession_sessions :
    (s.openSession sid).sessions = putSession sid freshSession s.sessions := rfl
@[simp] theorem State.openSession_issued :
    (s.openSession sid).issued = addIssued sid s.issued := rfl
@[simp] theorem State.openSession_port : (s.openSession sid).port = s.port := rfl
@[simp] theorem State.openSession_turns : (s.openSession sid).turns = s.turns := rfl
@[simp] theorem State.openSession_responses : (s.openSession sid).responses = s.responses := rfl
@[simp] theorem State.openSession_sender : (s.openSession sid).sender = s.sender := rfl
@[simp] theorem State.openSession_draws : (s.openSession sid).draws = s.draws.tail := rfl
@[simp] theorem State.openSession_freeCount :
    (s.openSession sid).freeCount = s.freeCount + 1 := rfl
@[simp] theorem State.openSession_epoch : (s.openSession sid).epoch = s.epoch := rfl
end openSession

section retire
variable (s : State) (sid : SessionId)

@[simp] theorem State.retire_cfg : (s.retire sid).cfg = s.cfg := rfl
@[simp] theorem State.retire_sessions :
    (s.retire sid).sessions = dropSession sid s.sessions := rfl
@[simp] theorem State.retire_issued : (s.retire sid).issued = s.issued := rfl
@[simp] theorem State.retire_port : (s.retire sid).port = s.port := rfl
@[simp] theorem State.retire_turns : (s.retire sid).turns = s.turns := rfl
@[simp] theorem State.retire_responses : (s.retire sid).responses = s.responses := rfl
@[simp] theorem State.retire_sender : (s.retire sid).sender = s.sender := rfl
@[simp] theorem State.retire_draws : (s.retire sid).draws = s.draws := rfl
@[simp] theorem State.retire_freeCount : (s.retire sid).freeCount = s.freeCount := rfl
@[simp] theorem State.retire_epoch : (s.retire sid).epoch = s.epoch := rfl
end retire

section takeFrame
variable (s : State) (k : Nat) (f : Frame)

@[simp] theorem State.takeFrame_cfg : (s.takeFrame k f).cfg = s.cfg := rfl
@[simp] theorem State.takeFrame_sessions : (s.takeFrame k f).sessions = s.sessions := rfl
@[simp] theorem State.takeFrame_issued : (s.takeFrame k f).issued = s.issued := rfl
@[simp] theorem State.takeFrame_port : (s.takeFrame k f).port = f :: s.port.eraseIdx k := rfl
@[simp] theorem State.takeFrame_turns : (s.takeFrame k f).turns = s.turns := rfl
@[simp] theorem State.takeFrame_responses : (s.takeFrame k f).responses = s.responses := rfl
@[simp] theorem State.takeFrame_sender : (s.takeFrame k f).sender = f.host := rfl
@[simp] theorem State.takeFrame_draws : (s.takeFrame k f).draws = s.draws := rfl
@[simp] theorem State.takeFrame_freeCount : (s.takeFrame k f).freeCount = s.freeCount := rfl
@[simp] theorem State.takeFrame_epoch : (s.takeFrame k f).epoch = s.epoch := rfl
end takeFrame

section hardReset
variable (s : State)

@[simp] theorem State.hardReset_cfg : s.hardReset.cfg = s.cfg := rfl
@[simp] theorem State.hardReset_sessions : s.hardReset.sessions = [] := rfl
@[simp] theorem State.hardReset_issued : s.hardReset.issued = [] := rfl
@[simp] theorem State.hardReset_port : s.hardReset.port = [] := rfl
@[simp] theorem State.hardReset_turns : s.hardReset.turns = s.turns := rfl
@[simp] theorem State.hardReset_responses : s.hardReset.responses = s.responses := rfl
@[simp] theorem State.hardReset_draws : s.hardReset.draws = s.draws := rfl
@[simp] theorem State.hardReset_freeCount : s.hardReset.freeCount = s.freeCount := rfl
@[simp] theorem State.hardReset_epoch : s.hardReset.epoch = s.epoch + 1 := rfl
end hardReset

section landSend
variable (s : State) (host obtained : Nat) (bytes : List Byte)

@[simp] theorem State.landSend_cfg : (s.landSend host obtained bytes).cfg = s.cfg := rfl
@[simp] theorem State.landSend_sessions :
    (s.landSend host obtained bytes).sessions = s.sessions := rfl
@[simp] theorem State.landSend_issued : (s.landSend host obtained bytes).issued = s.issued := rfl
@[simp] theorem State.landSend_port : (s.landSend host obtained bytes).port =
    s.port ++ framesFrom host obtained bytes := rfl
@[simp] theorem State.landSend_turns : (s.landSend host obtained bytes).turns = s.turns := rfl
@[simp] theorem State.landSend_responses :
    (s.landSend host obtained bytes).responses = s.responses := rfl
@[simp] theorem State.landSend_draws : (s.landSend host obtained bytes).draws = s.draws := rfl
@[simp] theorem State.landSend_freeCount :
    (s.landSend host obtained bytes).freeCount = s.freeCount := rfl
@[simp] theorem State.landSend_epoch : (s.landSend host obtained bytes).epoch = s.epoch := rfl
end landSend

/-- More bytes change the frames in flight only. -/
theorem State.landMore_eq (s : State) (k : Nat) (bytes : List Byte) :
    ∃ port, s.landMore k bytes = { s with port := port } := by
  unfold State.landMore
  split
  · exact ⟨s.port, rfl⟩
  · exact ⟨_, rfl⟩

@[simp] theorem exec_init (s : State) : exec .init s = .next (initResult s) := rfl
@[simp] theorem exec_update (sid : SessionId) (chunk : List Byte) (s : State) :
    exec (.update sid chunk) s = .next (updateResult sid chunk s) := rfl
@[simp] theorem exec_final (sid : SessionId) (s : State) :
    exec (.final sid) s = .next (finalResult sid s) := rfl
@[simp] theorem exec_permute (operand : List Byte) (s : State) :
    exec (.permute operand) s =
      .next (s.respond .ok 0x04 (bytesOf (keccakF (lanesOf operand)))) := rfl

end Sys2Proof.Machine
end

