-- ==== Sys2Proof/Laws/Bytes.lean ====
section
/-! SUPPORT. Words and bytes, headers of frames, and the bytes of a response. -/

namespace Sys2Proof

@[simp] theorem bytesOfU64_length (w : U64) : (bytesOfU64 w).length = 8 := by
  simp [bytesOfU64]

/-- A word read back from its bytes (R71). -/
@[simp] theorem u64OfBytes_bytesOfU64 (w : U64) : u64OfBytes (bytesOfU64 w) = w := by
  simp only [bytesOfU64, show List.range 8 = [0, 1, 2, 3, 4, 5, 6, 7] by decide, List.map_cons,
    List.map_nil, u64OfBytes]
  apply BitVec.eq_of_getLsbD_eq
  intro i hi
  simp only [BitVec.getLsbD_or, BitVec.getLsbD_setWidth, BitVec.getLsbD_shiftLeft,
    BitVec.getLsbD_extractLsb', hi, decide_true, Bool.true_and]
  interval_cases i <;> simp

/-- The header of a frame is the three words it was made of (R71). -/
theorem headerOf_frameOf (w0 w1 w2 : U64) (payload : List Byte) :
    headerOf (frameOf w0 w1 w2 payload) = some { w0 := w0, w1 := w1, w2 := w2 } := by
  have h0 : (bytesOfU64 w0 ++ bytesOfU64 w1 ++ bytesOfU64 w2 ++ payload).take 8
      = bytesOfU64 w0 := by
    simp [List.append_assoc]
  have h1 : ((bytesOfU64 w0 ++ bytesOfU64 w1 ++ bytesOfU64 w2 ++ payload).drop 8).take 8
      = bytesOfU64 w1 := by
    simp [List.append_assoc]
  have h2 : ((bytesOfU64 w0 ++ bytesOfU64 w1 ++ bytesOfU64 w2 ++ payload).drop 16).take 8
      = bytesOfU64 w2 := by
    simp [List.append_assoc, List.drop_append, List.drop_eq_nil_of_le]
  unfold headerOf frameOf
  rw [h0, h1, h2, u64OfBytes_bytesOfU64, u64OfBytes_bytesOfU64, u64OfBytes_bytesOfU64, if_pos]
  simp only [List.length_append, bytesOfU64_length]
  omega

@[simp] theorem frameOf_length (w0 w1 w2 : U64) (payload : List Byte) :
    (frameOf w0 w1 w2 payload).length = 24 + payload.length := by
  simp only [frameOf, List.length_append, bytesOfU64_length]

theorem frameOf_append (w0 w1 w2 : U64) (payload rest : List Byte) :
    frameOf w0 w1 w2 payload ++ rest = frameOf w0 w1 w2 (payload ++ rest) := by
  simp [frameOf]

theorem frameOf_drop (w0 w1 w2 : U64) (payload : List Byte) :
    (frameOf w0 w1 w2 payload).drop 24 = payload := by
  simp [frameOf, List.drop_append, List.drop_eq_nil_of_le]

end Sys2Proof

namespace Sys2Proof.Machine

/-- The eight bytes of a response header (R77). -/
theorem responseWord_bytes (status : Status) (ropc : Byte) :
    bytesOfU64 (responseWord status ropc) = [status.code, ropc, 0, 0, 0, 0, 0, 0] := by
  simp only [bytesOfU64, show List.range 8 = [0, 1, 2, 3, 4, 5, 6, 7] by decide, List.map_cons,
    List.map_nil, List.cons.injEq, and_true]
  refine ⟨?_, ?_, ?_, ?_, ?_, ?_, ?_, ?_⟩ <;>
  · apply BitVec.eq_of_getLsbD_eq
    intro i hi
    simp only [responseWord, BitVec.getLsbD_extractLsb', BitVec.getLsbD_or,
      BitVec.getLsbD_setWidth, BitVec.getLsbD_shiftLeft]
    interval_cases i <;> simp

theorem responseBytes_eq (status : Status) (ropc : Byte) (payload : List Byte) :
    responseBytes status ropc payload = 
      [status.code, ropc, 0, 0, 0, 0, 0, 0] ++ payload := by
  simp [responseBytes, responseWord_bytes]

/-- Taking an exception answers with eight bytes and changes nothing else (R207, R77). -/
theorem State.raise_eq_answered (s : State) (error : Status) (ropc : Byte) :
    s.raise error ropc = s.answered [error.code, ropc, 0, 0, 0, 0, 0, 0] := by
  rw [State.raise_eq_respond, State.respond_eq_answered, responseBytes_eq,
    List.append_nil]

end Sys2Proof.Machine
end

