-- ==== Sys2Proof/Laws/Sponge.lean ====
section
/-! SUPPORT. Lanes of a built state, equality of states by lanes, and one lemma for each step of the
round. -/

namespace Sys2Proof.Machine

theorem Sponge.lane_eq_getElem (A : Sponge) {i : Nat} (h : i < 25) : Sponge.lane A i = A[i] := by
  simp [Sponge.lane, h]

theorem Sponge.lane_out (A : Sponge) {i : Nat} (h : 25 ≤ i) : Sponge.lane A i = 0 := by
  simp [Sponge.lane, h]

/-- Two states with the same lanes are equal. -/
theorem Sponge.ext_lane {A B : Sponge} (h : ∀ i < 25, Sponge.lane A i = Sponge.lane B i) :
    A = B := by
  apply Vector.ext
  intro i hi
  rw [← Sponge.lane_eq_getElem A hi, ← Sponge.lane_eq_getElem B hi, h i hi]

/-- Two states with the same `A[x,y]` are equal. -/
theorem Sponge.ext_at {A B : Sponge}
    (h : ∀ x < 5, ∀ y < 5, Sponge.at A x y = Sponge.at B x y) : A = B := by
  apply Sponge.ext_lane
  intro i hi
  have := h (i % 5) (by omega) (i / 5) (by omega)
  simpa [Sponge.at, show i % 5 + 5 * (i / 5 % 5) = i by omega] using this

theorem Sponge.lane_build (f : Nat → Nat → Lane) {i : Nat} (h : i < 25) :
    Sponge.lane (Sponge.build f) i = f (i % 5) (i / 5) := by
  simp [Sponge.lane_eq_getElem _ h, Sponge.build]

/-- `A[x,y]` of a built state. -/
@[simp] theorem Sponge.at_build (f : Nat → Nat → Lane) (x y : Nat) :
    Sponge.at (Sponge.build f) x y = f (x % 5) (y % 5) := by
  rw [Sponge.at, Sponge.lane_build f (by omega),
    show (x % 5 + 5 * (y % 5)) % 5 = x % 5 by omega,
    show (x % 5 + 5 * (y % 5)) / 5 = y % 5 by omega]

@[simp] theorem Sponge.at_mod_left (A : Sponge) (x y : Nat) :
    Sponge.at A (x % 5) y = Sponge.at A x y := by
  simp [Sponge.at]

@[simp] theorem Sponge.at_mod_right (A : Sponge) (x y : Nat) :
    Sponge.at A x (y % 5) = Sponge.at A x y := by
  simp [Sponge.at]

theorem Sponge.at_congr (A : Sponge) {x x' y y' : Nat} (hx : x % 5 = x' % 5)
    (hy : y % 5 = y' % 5) : Sponge.at A x y = Sponge.at A x' y' := by
  simp [Sponge.at, hx, hy]

@[simp] theorem Sponge.lane_zero (i : Nat) : Sponge.lane Sponge.zero i = 0 := by
  by_cases h : i < 25
  · simp [Sponge.lane_eq_getElem _ h, Sponge.zero]
  · exact Sponge.lane_out _ (by omega)

@[simp] theorem Sponge.at_zero (x y : Nat) : Sponge.at Sponge.zero x y = 0 := by
  simp [Sponge.at]

/-! ### The steps of a round -/

theorem columnParity_mod (A : Sponge) (x : Nat) :
    columnParity A (x % 5) = columnParity A x := by
  simp [columnParity]

theorem columnParity_congr (A : Sponge) {x x' : Nat} (h : x % 5 = x' % 5) :
    columnParity A x = columnParity A x' := by
  rw [← columnParity_mod A x, ← columnParity_mod A x', h]

theorem theta_at (A : Sponge) (x y : Nat) :
    Sponge.at (theta A) x y = Sponge.at A x y ^^^
      (columnParity A (x + 4) ^^^ rotl64 (columnParity A (x + 1)) 1) := by
  simp only [theta, Sponge.at_build, thetaMask, Sponge.at_mod_left, Sponge.at_mod_right]
  rw [columnParity_congr A (show (x % 5 + 4) % 5 = (x + 4) % 5 by omega),
    columnParity_congr A (show (x % 5 + 1) % 5 = (x + 1) % 5 by omega)]

theorem rho_at (A : Sponge) (x y : Nat) :
    Sponge.at (rho A) x y = rotl64 (Sponge.at A x y) (rotationOffset x y) := by
  simp [rho, rotationOffset]

theorem pi_at (A : Sponge) (x y : Nat) :
    Sponge.at (pi A) x y = Sponge.at A (x + 3 * y) x := by
  simp only [pi, Sponge.at_build]
  exact Sponge.at_congr A (by omega) (by omega)

theorem chi_at (A : Sponge) (x y : Nat) :
    Sponge.at (chi A) x y =
      Sponge.at A x y ^^^ (~~~(Sponge.at A (x + 1) y) &&& Sponge.at A (x + 2) y) := by
  simp only [chi, Sponge.at_build, Sponge.at_mod_left, Sponge.at_mod_right]
  rw [Sponge.at_congr A (show (x % 5 + 1) % 5 = (x + 1) % 5 by omega) rfl,
    Sponge.at_congr A (show (x % 5 + 2) % 5 = (x + 2) % 5 by omega) rfl]

theorem iota_at (A : Sponge) (ir : Nat) {x y : Nat} (hx : x < 5) (hy : y < 5) :
    Sponge.at (iota A ir) x y =
      if x = 0 ∧ y = 0 then Sponge.at A 0 0 ^^^ roundConstant ir else Sponge.at A x y := by
  simp [iota, Nat.mod_eq_of_lt hx, Nat.mod_eq_of_lt hy]

/-! ### The byte view -/

theorem Sponge.lane_memWrite (A : Sponge) (j : Nat) (v : Byte) (hj : j < 200) (i : Nat) :
    Sponge.lane (memWrite A j v) i =
      if i = j / 8 then setLaneByte (Sponge.lane A i) (j % 8) v else Sponge.lane A i := by
  by_cases hi : i < 25
  · by_cases h : i = j / 8
    · subst h
      rw [if_pos rfl, Sponge.lane_eq_getElem (memWrite A j v) hi]
      simp only [memWrite, Vector.getElem_setIfInBounds_self]
    · rw [if_neg h, Sponge.lane_eq_getElem (memWrite A j v) hi, Sponge.lane_eq_getElem A hi]
      exact Vector.getElem_setIfInBounds_ne hi (Ne.symm h)
  · rw [Sponge.lane_out _ (by omega), if_neg (by omega), Sponge.lane_out _ (by omega)]

theorem Sponge.lane_lanesOf (bytes : List Byte) {i : Nat} (h : i < 25) :
    Sponge.lane (lanesOf bytes) i = u64OfBytes ((bytes.drop (8 * i)).take 8) := by
  simp [Sponge.lane_eq_getElem _ h, lanesOf]

@[simp] theorem memReadN_length (A : Sponge) (j n : Nat) : (memReadN A j n).length = n := by
  simp [memReadN]

theorem memReadN_getElem (A : Sponge) (j n k : Nat) (h : k < (memReadN A j n).length) :
    (memReadN A j n)[k] = memRead A (j + k) := by
  simp [memReadN]

@[simp] theorem bytesOf_length (A : Sponge) : (bytesOf A).length = 200 := by simp [bytesOf]

@[simp] theorem squeeze_length (A : Sponge) : (squeeze A).length = 32 := by simp [squeeze]

end Sys2Proof.Machine
end

