-- ==== Sys2Proof/Laws/Forced.lean ====
section
/-! SUPPORT. The permutation and the absorber with every lane evaluated between two steps: equal to
the model's definitions, and quick for the kernel on concrete states. -/

namespace Sys2Proof.Machine

/-- `k n`, with `n` evaluated first. -/
def forceNat {α : Type} (n : Nat) (k : Nat → α) : α :=
  match n with
  | 0 => k 0
  | m + 1 => k (m + 1)

theorem forceNat_eq {α : Type} (n : Nat) (k : Nat → α) : forceNat n k = k n := by
  cases n <;> rfl

/-- `k l`, with the lanes of `l` evaluated first. -/
def forceLanes {α : Type} : List Lane → (List Lane → α) → α
  | [], k => k []
  | w :: ws, k => forceNat w.toNat fun n => forceLanes ws fun vs => k (BitVec.ofNat 64 n :: vs)

theorem forceLanes_eq {α : Type} (l : List Lane) (k : List Lane → α) :
    forceLanes l k = k l := by
  induction l generalizing k with
  | nil => rfl
  | cons w ws ih => simp [forceLanes, forceNat_eq, ih]

/-- `k A`, with the lanes of `A` evaluated first. -/
def forced {α : Type} (A : Sponge) (k : Sponge → α) : α :=
  forceLanes A.toList fun l => if h : l.length = 25 then k ⟨⟨l⟩, h⟩ else k A

theorem forced_eq {α : Type} (A : Sponge) (k : Sponge → α) : forced A k = k A := by
  rw [forced, forceLanes_eq, dif_pos (by simp)]
  rfl

/-- θ, with the column parities and the masks evaluated first. -/
def thetaForced {α : Type} (A : Sponge) (k : Sponge → α) : α :=
  forceLanes ((List.range 5).map (columnParity A)) fun C =>
    forceLanes ((List.range 5).map fun x =>
        C.getD ((x + 4) % 5) 0 ^^^ rotl64 (C.getD ((x + 1) % 5) 0) 1) fun D =>
      forced (Sponge.build fun x y => Sponge.at A x y ^^^ D.getD x 0) k

theorem thetaForced_eq {α : Type} (A : Sponge) (k : Sponge → α) :
    thetaForced A k = k (theta A) := by
  have hC : ∀ n, ((List.range 5).map (columnParity A)).getD (n % 5) 0 = columnParity A n := by
    intro n
    rw [List.getD_eq_getElem _ _ (by simp; omega)]
    simp [columnParity_mod]
  rw [thetaForced, forceLanes_eq, forceLanes_eq, forced_eq]
  refine congrArg k (Sponge.ext_at fun x hx y hy => ?_)
  rw [Sponge.at_build, theta_at, Nat.mod_eq_of_lt hx, Nat.mod_eq_of_lt hy,
    List.getD_eq_getElem _ _ (by simpa using hx)]
  simp only [List.getElem_map, List.getElem_range, hC]

/-- One round, evaluated step by step. -/
def rndForced (A : Sponge) (ir : Nat) : Sponge :=
  forced A fun A => thetaForced A fun B => forced (pi (rho B)) fun C => iota (chi C) ir

/-- `KeccakF`, evaluated step by step. -/
def keccakFForced (A : Sponge) : Sponge := (List.range 24).foldl rndForced A

theorem keccakF_eq_forced (A : Sponge) : keccakF A = keccakFForced A := by
  have h : rnd = rndForced := by
    funext A ir
    simp only [rndForced, forced_eq, thetaForced_eq, rnd]
  rw [keccakF, keccakFForced, h]

/-- The absorber's XOR, evaluated lane by lane. -/
def xorRateForced (A : Sponge) (P : List Byte) : Sponge :=
  (List.range 17).foldl (fun A i => forced A fun A =>
    (List.range 8).foldl
      (fun A k => memWrite A (8 * i + k) (memRead A (8 * i + k) ^^^ P.getD (8 * i + k) 0)) A) A

theorem xorRate_eq_forced (A : Sponge) (P : List Byte) : xorRate A P = xorRateForced A P := by
  have h : List.range rate =
      (List.range 17).flatMap fun i => (List.range 8).map fun k => 8 * i + k := by decide
  simp only [xorRate, xorRateForced, forced_eq, h, List.foldl_flatMap, List.foldl_map]

theorem digestOf_eq_forced (r : Session) :
    digestOf r = squeeze (keccakFForced (xorRateForced r.A (pad r.buf))) := by
  rw [digestOf, absorbBlock, keccakF_eq_forced, xorRate_eq_forced]

theorem absorbBlock_eq_forced (A : Sponge) (P : List Byte) :
    absorbBlock A P = keccakFForced (xorRateForced A P) := by
  rw [absorbBlock, keccakF_eq_forced, xorRate_eq_forced]

end Sys2Proof.Machine
end

