-- ==== Sys2Proof/Laws/Registry.lean ====
section
/-! SUPPORT. What the registry operations do: lookup after a write, and the canonical forms. -/

namespace Sys2Proof.Machine

theorem bv_lt_of_not_lt {a b : SessionId} (h1 : ¬a < b) (h2 : ¬a = b) : b < a := by
  bv_omega

/-! ### Sessions -/

@[simp] theorem findSession_put_self (sid : SessionId) (r : Session)
    (l : List (SessionId × Session)) : findSession (putSession sid r l) sid = some r := by
  induction l with
  | nil => simp [putSession, findSession]
  | cons p rest ih =>
    obtain ⟨k, q⟩ := p
    simp only [putSession]
    split
    · simp [findSession]
    · split
      · simp [findSession]
      · rename_i h
        simp [findSession, ih, Ne.symm h]

theorem findSession_put_other {sid v : SessionId} (h : v ≠ sid) (r : Session)
    (l : List (SessionId × Session)) :
    findSession (putSession sid r l) v = findSession l v := by
  induction l with
  | nil => simp [putSession, findSession, Ne.symm h]
  | cons p rest ih =>
    obtain ⟨k, q⟩ := p
    simp only [putSession]
    split
    · simp [findSession, Ne.symm h]
    · split
      · rename_i hk
        subst hk
        simp [findSession, Ne.symm h]
      · simp [findSession, ih]

theorem findSession_drop_other {sid v : SessionId} (h : v ≠ sid)
    (l : List (SessionId × Session)) :
    findSession (dropSession sid l) v = findSession l v := by
  induction l with
  | nil => rfl
  | cons p rest ih =>
    obtain ⟨k, q⟩ := p
    simp only [dropSession]
    split
    · rename_i hk
      subst hk
      simp [findSession, Ne.symm h]
    · simp [findSession, ih]

/-- An id that heads no entry is not found. -/
theorem findSession_eq_none_iff (l : List (SessionId × Session)) (sid : SessionId) :
    findSession l sid = none ↔ sid ∉ l.map Prod.fst := by
  induction l with
  | nil => simp [findSession]
  | cons p rest ih =>
    obtain ⟨k, q⟩ := p
    by_cases h : k = sid
    · simp [findSession, h]
    · simp only [findSession, h, if_false, ih, List.map_cons, List.mem_cons, not_or]
      exact ⟨fun hr => ⟨fun e => h e.symm, hr⟩, fun hr => hr.2⟩

theorem findSession_drop_self {l : List (SessionId × Session)} (hl : RegistryWf l)
    (sid : SessionId) : findSession (dropSession sid l) sid = none := by
  induction l with
  | nil => rfl
  | cons p rest ih =>
    obtain ⟨k, q⟩ := p
    simp only [RegistryWf, List.map_cons, List.pairwise_cons] at hl
    simp only [dropSession]
    split
    · rename_i hk
      subst hk
      rw [findSession_eq_none_iff]
      exact fun hm => absurd (hl.1 _ hm) (by simp)
    · rename_i hk
      simp [findSession, hk, ih hl.2]

theorem putSession_keys_subset (sid : SessionId) (r : Session)
    (l : List (SessionId × Session)) :
    ∀ k ∈ (putSession sid r l).map Prod.fst, k = sid ∨ k ∈ l.map Prod.fst := by
  induction l with
  | nil => simp [putSession]
  | cons p rest ih =>
    obtain ⟨k, q⟩ := p
    simp only [putSession]
    split
    · simp
    · split
      · rename_i hk
        subst hk
        simp
      · intro v hv
        simp only [List.map_cons, List.mem_cons] at hv ⊢
        rcases hv with hv | hv
        · exact .inr (.inl hv)
        · exact (ih v hv).imp_right .inr

theorem putSession_wf {l : List (SessionId × Session)} (hl : RegistryWf l) (sid : SessionId)
    (r : Session) : RegistryWf (putSession sid r l) := by
  induction l with
  | nil => simp [putSession, RegistryWf]
  | cons p rest ih =>
    obtain ⟨k, q⟩ := p
    simp only [RegistryWf, List.map_cons, List.pairwise_cons] at hl
    simp only [putSession]
    split
    · rename_i hlt
      simp only [RegistryWf, List.map_cons, List.pairwise_cons, List.mem_cons]
      refine ⟨?_, hl⟩
      rintro v (rfl | hv)
      · exact hlt
      · exact BitVec.lt_trans hlt (hl.1 v hv)
    · split
      · rename_i hk
        subst hk
        simpa [RegistryWf] using hl
      · rename_i h1 h2
        simp only [RegistryWf, List.map_cons, List.pairwise_cons]
        refine ⟨fun v hv => ?_, ih hl.2⟩
        rcases putSession_keys_subset sid r rest v hv with rfl | hm
        · exact bv_lt_of_not_lt h1 h2
        · exact hl.1 v hm

theorem dropSession_keys_sublist (sid : SessionId) (l : List (SessionId × Session)) :
    ((dropSession sid l).map Prod.fst).Sublist (l.map Prod.fst) := by
  induction l with
  | nil => simp [dropSession]
  | cons p rest ih =>
    obtain ⟨k, q⟩ := p
    simp only [dropSession]
    split
    · simp
    · simpa using ih

theorem dropSession_wf {l : List (SessionId × Session)} (hl : RegistryWf l) (sid : SessionId) :
    RegistryWf (dropSession sid l) :=
  hl.sublist (dropSession_keys_sublist sid l)

/-- Two canonical registries with the same records are the same list. -/
theorem registry_ext {l m : List (SessionId × Session)} (hl : RegistryWf l) (hm : RegistryWf m)
    (h : ∀ v, findSession l v = findSession m v) : l = m := by
  induction l generalizing m with
  | nil =>
    cases m with
    | nil => rfl
    | cons p rest => simpa [findSession] using h p.1
  | cons p rest ih =>
    obtain ⟨k, q⟩ := p
    cases m with
    | nil => simpa [findSession] using h k
    | cons p' rest' =>
      obtain ⟨k', q'⟩ := p'
      simp only [RegistryWf, List.map_cons, List.pairwise_cons] at hl hm
      have hk : k = k' := by
        by_contra hne
        rcases BitVec.lt_trichotomy k k' with hlt | heq | hgt
        · have h1 := h k
          rw [show findSession ((k', q') :: rest') k = none from ?_] at h1
          · simp [findSession] at h1
          · rw [findSession_eq_none_iff, List.map_cons, List.mem_cons, not_or]
            exact ⟨hne, fun hmem => absurd (BitVec.lt_trans hlt (hm.1 _ hmem)) (by simp)⟩
        · exact hne heq
        · have h1 := h k'
          rw [show findSession ((k, q) :: rest) k' = none from ?_] at h1
          · simp [findSession] at h1
          · rw [findSession_eq_none_iff, List.map_cons, List.mem_cons, not_or]
            exact ⟨Ne.symm hne,
              fun hmem => absurd (BitVec.lt_trans hgt (hl.1 _ hmem)) (by simp)⟩
      subst hk
      have hq : q = q' := by simpa [findSession] using h k
      subst hq
      congr 1
      refine ih hl.2 hm.2 fun v => ?_
      by_cases hv : k = v
      · subst hv
        rw [(findSession_eq_none_iff _ _).mpr fun hmem => absurd (hl.1 _ hmem) (by simp),
          (findSession_eq_none_iff _ _).mpr fun hmem => absurd (hm.1 _ hmem) (by simp)]
      · simpa [findSession, hv] using h v

theorem putSession_length_new {l : List (SessionId × Session)} {sid : SessionId} (r : Session)
    (h : findSession l sid = none) : (putSession sid r l).length = l.length + 1 := by
  induction l with
  | nil => rfl
  | cons p rest ih =>
    obtain ⟨k, q⟩ := p
    by_cases hk : k = sid
    · simp [findSession, hk] at h
    · simp only [findSession, hk, if_false] at h
      simp only [putSession]
      split
      · rfl
      · simp [Ne.symm hk, ih h]

/-- Writing an open session keeps the ids. -/
theorem putSession_keys_old {l : List (SessionId × Session)} (hl : RegistryWf l) {sid : SessionId}
    {q : Session} (r : Session) (h : findSession l sid = some q) :
    (putSession sid r l).map Prod.fst = l.map Prod.fst := by
  induction l with
  | nil => simp [findSession] at h
  | cons p rest ih =>
    obtain ⟨k, q'⟩ := p
    simp only [RegistryWf, List.map_cons, List.pairwise_cons] at hl
    simp only [findSession] at h
    split at h
    · rename_i hk
      subst hk
      simp [putSession]
    · rename_i hk
      have hm : sid ∈ rest.map Prod.fst := by
        by_contra hn
        rw [(findSession_eq_none_iff _ _).mpr hn] at h
        cases h
      have hlt : k < sid := hl.1 _ hm
      simp only [putSession]
      rw [if_neg (by bv_omega), if_neg (Ne.symm hk)]
      simp [ih hl.2 h]

@[simp] theorem putSession_putSession (sid : SessionId) (a b : Session)
    (l : List (SessionId × Session)) :
    putSession sid b (putSession sid a l) = putSession sid b l := by
  induction l with
  | nil => simp [putSession]
  | cons p rest ih =>
    obtain ⟨k, q⟩ := p
    simp only [putSession]
    split
    · simp [putSession]
    · split
      · simp [putSession]
      · rename_i h1 h2
        simp [putSession, h1, h2, ih]

theorem dropSession_length_le (sid : SessionId) (l : List (SessionId × Session)) :
    (dropSession sid l).length ≤ l.length := by
  simpa using (dropSession_keys_sublist sid l).length_le

/-! ### Issued ids -/

@[simp] theorem mem_addIssued (sid v : SessionId) (l : List SessionId) :
    v ∈ addIssued sid l ↔ v = sid ∨ v ∈ l := by
  induction l with
  | nil => simp [addIssued]
  | cons k rest ih =>
    simp only [addIssued]
    split
    · simp
    · split
      · rename_i hk
        subst hk
        simp
      · simp only [List.mem_cons, ih]
        tauto

theorem addIssued_wf {l : List SessionId} (hl : IssuedWf l) (sid : SessionId) :
    IssuedWf (addIssued sid l) := by
  induction l with
  | nil => simp [addIssued]
  | cons k rest ih =>
    simp only [IssuedWf, List.pairwise_cons] at hl
    simp only [addIssued]
    split
    · rename_i hlt
      simp only [IssuedWf, List.pairwise_cons, List.mem_cons]
      refine ⟨?_, hl⟩
      rintro v (rfl | hv)
      · exact hlt
      · exact BitVec.lt_trans hlt (hl.1 v hv)
    · split
      · simpa [IssuedWf] using hl
      · rename_i h1 h2
        simp only [IssuedWf, List.pairwise_cons]
        refine ⟨fun v hv => ?_, ih hl.2⟩
        rcases (mem_addIssued sid v rest).mp hv with rfl | hm
        · exact bv_lt_of_not_lt h1 h2
        · exact hl.1 v hm

/-! ### Lookup (R182) -/

theorem lookup_open {s : State} {sid : SessionId} {r : Session}
    (h : findSession s.sessions sid = some r) : s.lookup sid = .ok r := by
  simp [State.lookup, h]

/-- Everything `lookup` can answer for an id that is not open. -/
theorem lookup_closed {s : State} {sid : SessionId} (h : findSession s.sessions sid = none) :
    s.lookup sid = .error
      (if sid ∈ s.issued ∧ s.cfg.retiredIdError = .sessionFinalized then .sessionFinalized
       else .unknownSession) := by
  unfold State.lookup
  rw [h]
  cases hc : s.cfg.retiredIdError <;> by_cases hi : sid ∈ s.issued <;> simp [hi]

theorem lookup_ok_iff {s : State} {sid : SessionId} {r : Session} :
    s.lookup sid = .ok r ↔ findSession s.sessions sid = some r := by
  cases h : findSession s.sessions sid with
  | none => simp [lookup_closed h]
  | some q => simp [lookup_open h]

/-! ### The draw (R181) -/

theorem firstFresh_some {issued : List SessionId} {n : Nat} {c v : SessionId}
    (h : firstFresh issued n c = some v) : v ≠ 0 ∧ v ∉ issued := by
  induction n generalizing c with
  | zero => simp [firstFresh] at h
  | succ n ih =>
    simp only [firstFresh] at h
    split at h
    · rename_i hc
      cases h
      exact hc
    · exact ih h

theorem firstFresh_self {issued : List SessionId} {v : SessionId} (h0 : v ≠ 0)
    (hv : v ∉ issued) (n : Nat) : firstFresh issued (n + 1) v = some v := by
  simp only [firstFresh]
  exact if_pos ⟨h0, hv⟩

/-- A search that fails has seen only 0 and issued ids. -/
theorem firstFresh_none {issued : List SessionId} {n : Nat} {c : SessionId}
    (h : firstFresh issued n c = none) :
    ∀ k < n, c + BitVec.ofNat 64 k ∈ (0 : SessionId) :: issued := by
  induction n generalizing c with
  | zero => intro k hk; omega
  | succ n ih =>
    simp only [firstFresh] at h
    split at h
    · cases h
    · rename_i hc
      intro k hk
      cases k with
      | zero =>
        rw [show c + BitVec.ofNat 64 0 = c by simp, List.mem_cons]
        tauto
      | succ k =>
        have := ih h k (by omega)
        rwa [show c + BitVec.ofNat 64 (k + 1) = c + 1 + BitVec.ofNat 64 k by
          rw [BitVec.add_assoc]; congr 1; rw [Nat.add_comm]; simp [BitVec.ofNat_add]]

theorem drawSid_some {s : State} {v : SessionId} (h : s.drawSid = some v) :
    v ≠ 0 ∧ v ∉ s.issued := firstFresh_some h

/-- The draw fails exactly when no fresh id exists (R181, R205). -/
theorem drawSid_eq_none_iff (s : State) :
    s.drawSid = none ↔ ∀ v : SessionId, v ≠ 0 → v ∈ s.issued := by
  constructor
  · intro h v hv
    have hall := firstFresh_none h
    by_cases hbig : 2 ^ 64 ≤ s.issued.length + 2
    · have := hall (v - s.candidate).toNat (Nat.lt_of_lt_of_le (v - s.candidate).isLt hbig)
      simp only [BitVec.ofNat_toNat, BitVec.setWidth_eq, List.mem_cons] at this
      rw [show s.candidate + (v - s.candidate) = v by
        rw [BitVec.add_comm, BitVec.sub_add_cancel]] at this
      tauto
    · exfalso
      have hsub : ((List.range (s.issued.length + 2)).map
          fun k => s.candidate + BitVec.ofNat 64 k) ⊆ 0 :: s.issued := by
        intro x hx
        obtain ⟨k, hk, rfl⟩ := List.mem_map.mp hx
        exact hall k (List.mem_range.mp hk)
      have hnd : ((List.range (s.issued.length + 2)).map
          fun k => s.candidate + BitVec.ofNat 64 k).Nodup := by
        refine List.Nodup.map_on ?_ List.nodup_range
        intro x hx y hy hxy
        have := congrArg BitVec.toNat (BitVec.add_right_inj s.candidate |>.mp hxy)
        simp only [BitVec.toNat_ofNat] at this
        rw [List.mem_range] at hx hy
        rwa [Nat.mod_eq_of_lt (by omega), Nat.mod_eq_of_lt (by omega)] at this
      have := (hnd.subperm hsub).length_le
      simp at this
  · intro h
    cases hd : s.drawSid with
    | none => rfl
    | some v =>
      obtain ⟨h0, hi⟩ := drawSid_some hd
      exact absurd (h v h0) hi

/-- Everything INIT can leave (R181). -/
theorem initResult_cases (s : State) :
    ((s.cfg.maxSessions ≤ s.sessions.length ∨ s.drawSid = none) ∧
        initResult s = s.raise .sessionLimit 0x01) ∨
      ∃ sid, s.sessions.length < s.cfg.maxSessions ∧ s.drawSid = some sid ∧
        initResult s = (s.openSession sid).respond .ok 0x01 (bytesOfU64 sid) := by
  unfold initResult
  split
  · rename_i h
    exact .inl ⟨.inl h, rfl⟩
  · rename_i h
    cases hd : s.drawSid with
    | none => exact .inl ⟨.inr rfl, rfl⟩
    | some sid => exact .inr ⟨sid, by omega, rfl, rfl⟩

/-- Everything UPDATE can leave (R141). -/
theorem updateResult_cases (sid : SessionId) (chunk : List Byte) (s : State) :
    (∃ e, s.lookup sid = .error e ∧ updateResult sid chunk s = s.raise e 0x02) ∨
      ∃ r, findSession s.sessions sid = some r ∧
        updateResult sid chunk s = State.respond
          { s with sessions := putSession sid (absorbChunk r chunk) s.sessions } .ok 0x02 [] := by
  unfold updateResult
  cases h : s.lookup sid with
  | error e => exact .inl ⟨e, rfl, rfl⟩
  | ok r => exact .inr ⟨r, lookup_ok_iff.mp h, rfl⟩

/-- Everything FINAL can leave (R162, R163). -/
theorem finalResult_cases (sid : SessionId) (s : State) :
    (∃ e, s.lookup sid = .error e ∧ finalResult sid s = s.raise e 0x03) ∨
      (∃ r, findSession s.sessions sid = some r ∧ s.cfg.allowEmptyFinal = false ∧ r.total = 0 ∧
        finalResult sid s = (s.retire sid).raise .emptySession 0x03) ∨
      ∃ r, findSession s.sessions sid = some r ∧
        ¬(s.cfg.allowEmptyFinal = false ∧ r.total = 0) ∧
        finalResult sid s = (s.retire sid).respond .ok 0x03 (digestOf r) := by
  unfold finalResult
  cases h : s.lookup sid with
  | error e => exact .inl ⟨e, rfl, rfl⟩
  | ok r =>
    have hf := lookup_ok_iff.mp h
    by_cases hp : s.cfg.allowEmptyFinal = false ∧ r.total = 0
    · exact .inr (.inl ⟨r, hf, hp.1, hp.2, by simp only [hp, and_self, if_true]⟩)
    · exact .inr (.inr ⟨r, hf, hp, by simp only [hp, if_false]⟩)

/-- What every command leaves in common: the frame in service is answered, and the configuration, the
coming turns and the epoch stay. -/
theorem exec_answers {i : Instr} {s t : State} (h : exec i s = .next t) :
    t.cfg = s.cfg ∧ t.port = s.port.tail ∧ t.turns = s.turns ∧ t.epoch = s.epoch ∧
      ∃ bytes, t.responses = s.responses ++ [{ host := s.sender, bytes := bytes }] := by
  cases i with
  | init =>
    cases h
    rcases initResult_cases s with ⟨-, h⟩ | ⟨sid, -, -, h⟩ <;> rw [h] <;>
      exact ⟨rfl, rfl, rfl, rfl, _, rfl⟩
  | update sid chunk =>
    cases h
    rcases updateResult_cases sid chunk s with ⟨e, -, h⟩ | ⟨r, -, h⟩ <;> rw [h] <;>
      exact ⟨rfl, rfl, rfl, rfl, _, rfl⟩
  | final sid =>
    cases h
    rcases finalResult_cases sid s with ⟨e, -, h⟩ | ⟨r, -, -, -, h⟩ | ⟨r, -, -, h⟩ <;> rw [h] <;>
      exact ⟨rfl, rfl, rfl, rfl, _, rfl⟩
  | permute operand =>
    cases h
    exact ⟨rfl, rfl, rfl, rfl, _, rfl⟩

end Sys2Proof.Machine
end

