-- ==== Sys2Proof/Laws/Step.lean ====
section
/-! SUPPORT. What the decoder, the absorber's loop, the engine's turn and a step can do, said once
each. -/

namespace Sys2Proof

theorem decodeHeader_ne_incomplete (h : Header) (payload : List Byte) :
    decodeHeader h payload ≠ .error .incomplete := by
  unfold decodeHeader
  repeat' split
  all_goals simp

/-- The decoder waits for exactly the frames that are not wholly delivered (R76, R238). -/
theorem decode_incomplete_iff (bytes : List Byte) :
    decode bytes = .error .incomplete ↔ isWhole bytes = false := by
  unfold decode isWhole frameLength
  cases headerOf bytes with
  | none => simp
  | some h =>
    simp only [Option.map_some, decide_eq_false_iff_not, not_le]
    split
    · rename_i hlt
      simp [hlt]
    · rename_i hge
      simp [decodeHeader_ne_incomplete, hge]

/-- A whole frame is decoded by its header, with the `W2` payload bytes (R75). -/
theorem decode_whole {bytes : List Byte} (h : isWhole bytes = true) :
    ∃ hd, headerOf bytes = some hd ∧ 24 + hd.w2.toNat ≤ bytes.length ∧
      decode bytes = decodeHeader hd ((bytes.drop 24).take hd.w2.toNat) := by
  unfold isWhole frameLength at h
  cases hh : headerOf bytes with
  | none => simp [hh] at h
  | some hd =>
    simp only [hh, Option.map_some, decide_eq_true_eq] at h
    refine ⟨hd, rfl, h, ?_⟩
    unfold decode
    simp only [hh]
    exact if_neg (by omega)

/-- Everything a header can decode to. -/
theorem decodeHeader_ok {hd : Header} {payload : List Byte} {i : Instr}
    (h : decodeHeader hd payload = .ok i) :
    (hd.w0 = 1 ∧ hd.w1 = 0 ∧ hd.w2 = 0 ∧ i = .init) ∨
      (hd.w0 = 2 ∧ i = .update hd.w1 payload) ∨
      (hd.w0 = 3 ∧ hd.w2 = 0 ∧ i = .final hd.w1) ∨
      (hd.w0 = 4 ∧ hd.w1 = 0 ∧ hd.w2 = 200 ∧ i = .permute payload) := by
  unfold decodeHeader at h
  split at h
  · rename_i h0
    split at h
    · rename_i hc
      cases h
      exact .inl ⟨h0, hc.1, hc.2, rfl⟩
    · cases h
  · split at h
    · rename_i h0
      cases h
      exact .inr (.inl ⟨h0, rfl⟩)
    · split at h
      · rename_i h0
        split at h
        · rename_i hc
          cases h
          exact .inr (.inr (.inl ⟨h0, hc, rfl⟩))
        · cases h
      · split at h
        · rename_i h0
          split at h
          · rename_i hc
            cases h
            exact .inr (.inr (.inr ⟨h0, hc.1, hc.2, rfl⟩))
          · cases h
        · split at h <;> cases h

end Sys2Proof

namespace Sys2Proof.Machine

/-! ### The absorber's loop (R141, R143) -/

theorem blockOf_succ (q : List Byte) (t : Nat) :
    blockOf q (t + 1) = blockOf (q.drop 136) t := by
  simp [blockOf, List.drop_drop, Nat.mul_add, Nat.add_comm]

/-- With `n` full blocks in the queue, the loop runs exactly `n` times, on the blocks in order. -/
theorem absorbLoop_eq (n : Nat) (A : Sponge) (q : List Byte) (h : 136 * n ≤ q.length) :
    absorbLoop n A q =
      ((List.range n).foldl (fun S t => absorbBlock S (blockOf q t)) A, q.drop (136 * n)) := by
  induction n generalizing A q with
  | zero => simp [absorbLoop]
  | succ n ih =>
    have hq : rate ≤ q.length := by simp only [rate]; omega
    have hd : 136 * n ≤ (q.drop 136).length := by rw [List.length_drop]; omega
    have hb : ∀ t, blockOf (q.drop 136) t = blockOf q (t + 1) := fun t => (blockOf_succ q t).symm
    have h0 : q.take 136 = blockOf q 0 := rfl
    rw [absorbLoop, if_pos hq, show rate = 136 from rfl, ih _ _ hd, List.range_succ_eq_map,
      List.foldl_cons, List.foldl_map, List.drop_drop, h0]
    simp only [hb, Nat.succ_eq_add_one, Nat.mul_add, Nat.mul_one, Nat.add_comm]

/-- UPDATE on a session record, in the terms of R35. -/
theorem absorbChunk_eq (r : Session) (chunk : List Byte) :
    absorbChunk r chunk =
      { A := absorbedState r.A (r.buf ++ chunk)
        buf := absorbedTail (r.buf ++ chunk)
        total := r.total + BitVec.ofNat 64 chunk.length } := by
  simp only [absorbChunk, rate,
    absorbLoop_eq _ r.A (r.buf ++ chunk) (Nat.mul_div_le (r.buf ++ chunk).length 136)]
  rfl

theorem absorbedTail_length (M : List Byte) : (absorbedTail M).length = M.length % 136 := by
  simp only [absorbedTail, List.length_drop]
  omega

/-! ### The engine's turn and the step -/

/-- A run of `n + 1` steps is a step and a run of `n`. -/
theorem run_succ (M : Host.Core) {s t : M.State} (h : M.step s = .next t) (n : Nat) :
    M.run (n + 1) s = M.run n t := by
  simp only [Host.Core.run, h]

/-- Every command completes: it answers a next state. -/
theorem exec_next (i : Instr) (s : State) : ∃ t, exec i s = .next t := by
  cases i with
  | init => exact ⟨_, rfl⟩
  | update sid chunk => exact ⟨_, rfl⟩
  | final sid => exact ⟨_, rfl⟩
  | permute operand => exact ⟨_, rfl⟩

/-- Everything the engine's turn on a frame can do. -/
theorem serve_cases (s : State) (k : Nat) :
    (s.serve k = .next s ∧ ∀ f, s.port[k]? = some f → isWhole f.bytes = false) ∨
      ∃ f, s.port[k]? = some f ∧ isWhole f.bytes = true ∧
        (((∀ i, decode f.bytes ≠ .ok i) ∧
            s.serve k = .next ((s.takeFrame k f).raise .illegalCommand (opcodeByte f.bytes))) ∨
          ∃ i, decode f.bytes = .ok i ∧
            ((staleUse s.epoch f.obtained i = true ∧ s.serve k = .fault .staleSessionId) ∨
              (staleUse s.epoch f.obtained i = false ∧
                s.serve k = exec i (s.takeFrame k f)))) := by
  unfold State.serve
  cases hf : s.port[k]? with
  | none => exact .inl ⟨rfl, by simp⟩
  | some f =>
    by_cases hw : isWhole f.bytes = true
    · refine .inr ⟨f, rfl, hw, ?_⟩
      cases hd : decode f.bytes with
      | error e =>
        refine .inl ⟨by simp, ?_⟩
        cases e with
        | incomplete => simp [(decode_incomplete_iff _).mp hd] at hw
        | reservedBits => simp only [hd]
        | reservedOpcode => simp only [hd]
        | fieldConstraint => simp only [hd]
      | ok i =>
        refine .inr ⟨i, rfl, ?_⟩
        cases hst : staleUse s.epoch f.obtained i with
        | true => exact .inl ⟨rfl, by simp [hd, hst]⟩
        | false => exact .inr ⟨rfl, by simp [hd, hst]⟩
    · have hw' : isWhole f.bytes = false := by simpa using hw
      refine .inl ⟨by simp only [(decode_incomplete_iff _).mpr hw'], ?_⟩
      intro g hg
      cases hg
      exact hw'

/-- The frames a turn without a choice listed can fall on are the whole ones. -/
theorem mem_wholeFrames (s : State) (k : Nat) :
    k ∈ s.wholeFrames ↔ ∃ f, s.port[k]? = some f ∧ isWhole f.bytes = true := by
  unfold State.wholeFrames
  rw [List.mem_filter, List.mem_range]
  cases hf : s.port[k]? with
  | none => simp
  | some f =>
    obtain ⟨hk, -⟩ := List.getElem?_eq_some_iff.mp hf
    simp [hk]

/-- A turn of the engine's own choice is its turn on some whole frame, or waits. -/
theorem serveAny_cases (s : State) :
    (s.wholeFrames = [] ∧ s.serveAny = .next s) ∨
      ∃ k n, k ∈ s.wholeFrames ∧ s.freeCount ≤ n ∧ n ≤ s.freeCount + 1 ∧
        s.serveAny = State.serve { s with freeCount := n } k := by
  unfold State.serveAny
  match hw : s.wholeFrames with
  | [] => exact .inl ⟨rfl, rfl⟩
  | [k] => exact .inr ⟨k, s.freeCount, by simp, Nat.le_refl _, Nat.le_succ _, rfl⟩
  | k :: l :: rest =>
    refine .inr ⟨(k :: l :: rest).getD (Config.freeOrder s.freeCount % (rest.length + 2)) k,
      s.freeCount + 1, ?_, Nat.le_succ _, Nat.le_refl _, rfl⟩
    have hlt : Config.freeOrder s.freeCount % (rest.length + 2) < (k :: l :: rest).length := by
      exact Nat.mod_lt _ (Nat.succ_pos _)
    rw [List.getD_eq_getElem _ _ hlt]
    exact List.getElem_mem hlt

/-- Everything a step that answers a next state can have done. -/
theorem step_next_cases {s t : State} (h : step s = .next t) :
    s.overlapping = false ∧
      ((∃ host obtained bytes ts, s.turns = .send host obtained bytes :: ts ∧
          t = State.landSend { s with turns := ts } host obtained bytes) ∨
        (∃ k bytes ts, s.turns = .more k bytes :: ts ∧
          t = State.landMore { s with turns := ts } k bytes) ∨
        (∃ ts, s.turns = .reset :: ts ∧ t = State.hardReset { s with turns := ts }) ∨
        (∃ ts, t = { s with turns := ts, freeCount := t.freeCount }) ∨
        (∃ ts n k f, s.port[k]? = some f ∧ isWhole f.bytes = true ∧
          (∀ i, decode f.bytes ≠ .ok i) ∧
          t = (State.takeFrame { s with turns := ts, freeCount := n } k f).raise
            .illegalCommand (opcodeByte f.bytes)) ∨
        ∃ ts n k f i, s.port[k]? = some f ∧ isWhole f.bytes = true ∧ decode f.bytes = .ok i ∧
          staleUse s.epoch f.obtained i = false ∧
          exec i (State.takeFrame { s with turns := ts, freeCount := n } k f) = .next t) := by
  unfold step at h
  cases ho : s.overlapping with
  | true => simp [ho] at h
  | false =>
    simp only [ho] at h
    refine ⟨rfl, ?_⟩
    have served : ∀ (ts : List Turn) (n k : Nat),
        State.serve { s with turns := ts, freeCount := n } k = .next t →
        (∃ ts, t = { s with turns := ts, freeCount := t.freeCount }) ∨
        (∃ ts n k f, s.port[k]? = some f ∧ isWhole f.bytes = true ∧
          (∀ i, decode f.bytes ≠ .ok i) ∧
          t = (State.takeFrame { s with turns := ts, freeCount := n } k f).raise
            .illegalCommand (opcodeByte f.bytes)) ∨
        ∃ ts n k f i, s.port[k]? = some f ∧ isWhole f.bytes = true ∧ decode f.bytes = .ok i ∧
          staleUse s.epoch f.obtained i = false ∧
          exec i (State.takeFrame { s with turns := ts, freeCount := n } k f) = .next t := by
      intro ts n k hs
      rcases serve_cases { s with turns := ts, freeCount := n } k with
        ⟨hw, -⟩ | ⟨f, hf, hwf, ⟨hill, hr⟩ | ⟨i, hi, ⟨-, hr⟩ | ⟨hst, hr⟩⟩⟩
      · rw [hw] at hs
        cases hs
        exact .inl ⟨ts, rfl⟩
      · rw [hr] at hs
        cases hs
        exact .inr (.inl ⟨ts, n, k, f, hf, hwf, hill, rfl⟩)
      · rw [hr] at hs
        cases hs
      · rw [hr] at hs
        exact .inr (.inr ⟨ts, n, k, f, i, hf, hwf, hi, hst, hs⟩)
    cases ht : s.turns with
    | nil =>
      simp only [ht] at h
      refine .inr (.inr (.inr ?_))
      rcases serveAny_cases s with ⟨-, hr⟩ | ⟨k, n, -, -, -, hr⟩
      · rw [hr] at h
        cases h
        exact .inl ⟨s.turns, rfl⟩
      · rw [hr] at h
        exact served s.turns n k h
    | cons turn ts =>
      simp only [ht] at h
      cases turn with
      | serve k => exact .inr (.inr (.inr (served ts s.freeCount k h)))
      | send host obtained bytes =>
        cases h
        exact .inl ⟨host, obtained, bytes, ts, rfl, rfl⟩
      | more k bytes =>
        cases h
        exact .inr (.inl ⟨k, bytes, ts, rfl, rfl⟩)
      | reset =>
        cases h
        exact .inr (.inr (.inl ⟨ts, rfl, rfl⟩))

end Sys2Proof.Machine
end

