-- ==== Sys2Proof/Laws/Frames.lean ====
section
/-! SUPPORT. Cutting delivered bytes into frames, and the session a frame names. -/

namespace Sys2Proof

theorem headerOf_some_length {bytes : List Byte} {h : Header} (hh : headerOf bytes = some h) :
    24 ≤ bytes.length := by
  unfold headerOf at hh
  split at hh
  · assumption
  · cases hh

/-- The header is read from the first 24 bytes only. -/
theorem headerOf_take {bytes : List Byte} {n : Nat} (h24 : 24 ≤ n) (hn : n ≤ bytes.length) :
    headerOf (bytes.take n) = headerOf bytes := by
  unfold headerOf
  have h1 : 24 ≤ (bytes.take n).length := by rw [List.length_take]; omega
  rw [if_pos h1, if_pos (by omega), List.take_take, List.drop_take, List.drop_take, List.take_take,
    List.take_take, Nat.min_eq_left (by omega), Nat.min_eq_left (by omega),
    Nat.min_eq_left (by omega)]

theorem frameLength_take {bytes : List Byte} {n : Nat} (h24 : 24 ≤ n) (hn : n ≤ bytes.length) :
    frameLength (bytes.take n) = frameLength bytes := by
  rw [frameLength, headerOf_take h24 hn, frameLength]

theorem frameLength_short {bytes : List Byte} (h : bytes.length < 24) :
    frameLength bytes = none := by
  unfold frameLength headerOf
  rw [if_neg (by omega)]
  rfl

theorem frameLength_ge {bytes : List Byte} {n : Nat} (h : frameLength bytes = some n) :
    24 ≤ n := by
  unfold frameLength at h
  cases hh : headerOf bytes with
  | none => simp [hh] at h
  | some hd =>
    simp only [hh, Option.map_some, Option.some.injEq] at h
    omega

/-- The first byte of a frame is the `OPC` of its header (R72, R77). -/
theorem opcodeByte_eq_opc {bytes : List Byte} {hd : Header} (hh : headerOf bytes = some hd) :
    opcodeByte bytes = hd.opc := by
  have h24 := headerOf_some_length hh
  unfold headerOf at hh
  rw [if_pos h24] at hh
  cases hh
  match bytes, h24 with
  | b :: bs, _ =>
    simp only [opcodeByte, List.headD_cons, Header.opc, List.take_succ_cons, u64OfBytes]
    apply BitVec.eq_of_getLsbD_eq
    intro i hi
    simp [hi]
    intro
    omega

/-- The session named by a frame that decodes to a command is the one the command names. -/
theorem sessionNamed_of_decode {bytes : List Byte} {i : Instr} (h : decode bytes = .ok i)
    (sid : SessionId) :
    sessionNamed bytes = some sid ↔ Machine.namesSession sid i = true := by
  have hw : isWhole bytes = true := by
    by_contra hn
    have := (decode_incomplete_iff bytes).mpr (by simpa using hn)
    rw [this] at h
    cases h
  obtain ⟨hd, hh, -, hdec⟩ := decode_whole hw
  rw [hdec] at h
  unfold sessionNamed
  simp only [hh]
  rcases decodeHeader_ok h with ⟨h0, -, -, rfl⟩ | ⟨h0, rfl⟩ | ⟨h0, h2, rfl⟩ | ⟨h0, -, -, rfl⟩
  · simp [h0, Machine.namesSession]
  · simp [h0, Machine.namesSession]
  · simp [h0, h2, Machine.namesSession]
  · simp [h0, Machine.namesSession]

end Sys2Proof

namespace Sys2Proof.Machine

/-- The open session a frame names is one its bytes name. -/
theorem openNamed_some {s : State} {f : Frame} {sid : SessionId} (h : s.openNamed f = some sid) :
    sessionNamed f.bytes = some sid ∧ s.isOpen sid = true := by
  unfold State.openNamed at h
  split at h
  · cases h
  · split at h
    · cases h
      exact ⟨by assumption, by assumption⟩
    · cases h

/-- A state that meets State.Answerable shows no overlap (R236). -/
theorem overlapping_of_answerable {s : State} (h : s.Answerable) : s.overlapping = false := by
  obtain ⟨-, h⟩ := h
  unfold State.overlapping
  generalize s.port = port at h ⊢
  induction port with
  | nil => rfl
  | cons f l ih =>
    rw [List.pairwise_cons] at h
    cases ho : s.openNamed f with
    | none =>
      rw [List.filterMap_cons, ho]
      exact ih h.2
    | some sid =>
      rw [List.filterMap_cons, ho]
      simp only [hasRepeat, ih h.2, Bool.or_false, List.contains_eq_mem, decide_eq_false_iff_not]
      intro hm
      obtain ⟨g, hg, hgo⟩ := List.mem_filterMap.mp hm
      obtain ⟨hf, hopen⟩ := openNamed_some ho
      simp [State.isOpen, (h.1 g hg sid hf (openNamed_some hgo).1).1] at hopen

/-- Every piece that delivered bytes are cut into holds bytes, and none beyond its frame. -/
theorem splitFrames_wf (n : Nat) (bytes : List Byte) :
    ∀ b ∈ splitFrames n bytes, b ≠ [] ∧ ∀ len, frameLength b = some len → b.length ≤ len := by
  induction n generalizing bytes with
  | zero => simp [splitFrames]
  | succ n ih =>
    intro b hb
    unfold splitFrames at hb
    split at hb
    · simp at hb
    · rename_i hne
      split at hb
      · rename_i hnone
        rw [List.mem_singleton] at hb
        subst hb
        exact ⟨hne, fun len hlen => by rw [hnone] at hlen; cases hlen⟩
      · rename_i len hlen
        split at hb
        · rename_i hle
          rw [List.mem_singleton] at hb
          subst hb
          refine ⟨hne, fun m hm => ?_⟩
          rw [hlen] at hm
          cases hm
          exact hle
        · rename_i hgt
          rcases List.mem_cons.mp hb with rfl | hb
          · have h24 := frameLength_ge hlen
            refine ⟨fun he => ?_, fun m hm => ?_⟩
            · rcases List.take_eq_nil_iff.mp he with h0 | h0
              · omega
              · exact hne h0
            · rw [frameLength_take h24 (by omega), hlen] at hm
              cases hm
              rw [List.length_take]
              omega
          · exact ih _ b hb

theorem framesFrom_wf (host obtained : Nat) (bytes : List Byte) :
    ∀ f ∈ framesFrom host obtained bytes, FrameWf f ∧ f.host = host ∧ f.obtained = obtained := by
  intro f hf
  obtain ⟨b, hb, rfl⟩ := List.mem_map.mp hf
  exact ⟨splitFrames_wf _ _ b hb, rfl, rfl⟩

/-- Bytes that are no more than one frame are one frame. -/
theorem framesFrom_one {bytes : List Byte} (hne : bytes ≠ [])
    (h : ∀ n, frameLength bytes = some n → bytes.length ≤ n) (host obtained : Nat) :
    framesFrom host obtained bytes = [{ host := host, obtained := obtained, bytes := bytes }] := by
  have hs : splitFrames bytes.length bytes = [bytes] := by
    cases hl : bytes.length with
    | zero => exact absurd (List.length_eq_zero_iff.mp hl) hne
    | succ n =>
      unfold splitFrames
      rw [if_neg hne]
      cases hf : frameLength bytes with
      | none => rfl
      | some len => exact if_pos (by have := h len hf; omega)
  rw [framesFrom, hs, List.map_singleton]

end Sys2Proof.Machine
end

