-- ==== Sys2Proof/Laws/PerInstr.lean ====
section
/-! SUPPORT. Facts about each command as syntax, one lemma for each constructor. -/

namespace Sys2Proof.Laws.FrameLength

/-- "Every command frame, legal or not, is exactly `24 + W2` bytes long" (R76): the length that the
header of an encoded command gives is the length of the encoding. -/
def Statement (i : Instr) : Prop :=
  i.wf = true → frameLength (encode i) = some (encode i).length

theorem init : Statement .init := by
  intro _
  decide

theorem update (sid : SessionId) (chunk : List Byte) : Statement (.update sid chunk) := by
  intro h
  have h' : chunk.length < 2 ^ 64 := by simpa [Instr.wf] using h
  simpa [frameLength, encode, headerOf_frameOf] using h'

theorem final (sid : SessionId) : Statement (.final sid) := by
  intro _
  simp [frameLength, encode, headerOf_frameOf]

theorem permute (operand : List Byte) : Statement (.permute operand) := by
  intro h
  have h' : operand.length = 200 := by simpa [Instr.wf] using h
  simp [frameLength, encode, headerOf_frameOf, h']

end Sys2Proof.Laws.FrameLength
end

