-- ==== Sys2Proof/Tests/Slice0.lean ====
section
/-! SUPPORT. Tests: expected results are the spec's own (95_test_vectors.md V1 to V59b, the examples
of R83), cited at each. The second half shows, for the hypotheses of each obligation, a concrete
state and operands that meet them. -/

namespace Sys2Proof.Machine.Tests

/-! ### Ill-formed commands -/

theorem test_wf_refuses_short_operand : (Instr.permute (List.replicate 199 0)).wf = false := by
  decide +kernel

theorem test_wf_refuses_long_operand : (Instr.permute (List.replicate 201 0)).wf = false := by
  decide +kernel

theorem test_wf_refuses_long_chunk : (Instr.update 1 (List.replicate (2 ^ 64) 0)).wf = false := by
  simp only [Instr.wf, List.length_replicate]
  decide

/-! ### Encoding -/

/-- R83. -/
theorem test_decode_init :
    decode [0x01, 0, 0, 0, 0, 0, 0, 0, 0, 0, 0, 0, 0, 0, 0, 0, 0, 0, 0, 0, 0, 0, 0, 0] =
      .ok .init := by decide

/-- R83: `UPDATE 0x1234, "abc"`. -/
theorem test_decode_update :
    decode [0x02, 0, 0, 0, 0, 0, 0, 0, 0x34, 0x12, 0, 0, 0, 0, 0, 0, 0x03, 0, 0, 0, 0, 0, 0, 0,
      0x61, 0x62, 0x63] = .ok (.update 0x1234 [0x61, 0x62, 0x63]) := by decide

/-- R83: `FINAL 0x1234`. -/
theorem test_decode_final :
    decode [0x03, 0, 0, 0, 0, 0, 0, 0, 0x34, 0x12, 0, 0, 0, 0, 0, 0, 0, 0, 0, 0, 0, 0, 0, 0] =
      .ok (.final 0x1234) := by decide

/-- R83: `PERMUTE zeros(200)`. -/
theorem test_decode_permute :
    decode ([0x04, 0, 0, 0, 0, 0, 0, 0, 0, 0, 0, 0, 0, 0, 0, 0, 0xC8, 0, 0, 0, 0, 0, 0, 0] ++
      List.replicate 200 0) = .ok (.permute (List.replicate 200 0)) := by decide +kernel

/-- V55: an all-zero header. -/
theorem test_decode_zero_header : decode (List.replicate 24 0) = .error .reservedOpcode := by decide

/-- V56: UPDATE with `RSV = 1`, on its 27 bytes. -/
theorem test_decode_reserved_bits :
    decode [0x02, 0x01, 0, 0, 0, 0, 0, 0, 0x34, 0x12, 0, 0, 0, 0, 0, 0, 0x03, 0, 0, 0, 0, 0, 0, 0,
      0x61, 0x62, 0x63] = .error .reservedBits := by decide

/-- V57: INIT with `W1 = 5`. -/
theorem test_decode_init_with_id :
    decode [0x01, 0, 0, 0, 0, 0, 0, 0, 0x05, 0, 0, 0, 0, 0, 0, 0, 0, 0, 0, 0, 0, 0, 0, 0] =
      .error .fieldConstraint := by decide

/-- V58: FINAL with `W2 = 1` and one payload byte. -/
theorem test_decode_final_with_length :
    decode [0x03, 0, 0, 0, 0, 0, 0, 0, 0x77, 0, 0, 0, 0, 0, 0, 0, 0x01, 0, 0, 0, 0, 0, 0, 0, 0x00] =
      .error .fieldConstraint := by decide

/-- R76, R238: one byte of the payload is missing. -/
theorem test_decode_incomplete :
    decode [0x02, 0, 0, 0, 0, 0, 0, 0, 0x34, 0x12, 0, 0, 0, 0, 0, 0, 0x03, 0, 0, 0, 0, 0, 0, 0,
      0x61, 0x62] = .error .incomplete := by decide

/-- The opcode table's words, the operand words zero. -/
theorem test_table_words : decodeTableWord 64 1 = some .init ∧
    decodeTableWord 64 2 = some (.update 0 []) ∧ decodeTableWord 64 3 = some (.final 0) := by decide

/-- PERMUTE with `W2 = 0` breaks R74; with `W2 = 200` in its third word it is the command. -/
theorem test_table_word_permute : decodeTableWord 64 4 = none ∧
    decodeTableWord 192 (4 + 200 * 2 ^ 128) = some (.permute (List.replicate 200 0)) := by
  decide +kernel

/-! ### The round steps -/

/-- V13: θ with rotation wrap-around. -/
theorem test_theta_wraps :
    (theta (Sponge.build fun x y => if x = 1 ∧ y = 0 then 0x8000000000000000 else 0)).toList =
      [1, 0x8000000000000000, 0x8000000000000000, 0, 0, 1, 0, 0x8000000000000000, 0, 0,
       1, 0, 0x8000000000000000, 0, 0, 1, 0, 0x8000000000000000, 0, 0,
       1, 0, 0x8000000000000000, 0, 0] := by decide +kernel

/-- V15: ρ on all lanes 1. -/
theorem test_rho_offsets :
    (rho (Sponge.build fun _ _ => 1)).toList =
      [0x1, 0x2, 0x4000000000000000, 0x10000000, 0x8000000, 0x1000000000, 0x100000000000, 0x40,
       0x80000000000000, 0x100000, 0x8, 0x400, 0x80000000000, 0x2000000, 0x8000000000,
       0x20000000000, 0x200000000000, 0x8000, 0x200000, 0x100, 0x40000, 0x4,
       0x2000000000000000, 0x100000000000000, 0x4000] := by decide +kernel

/-- V16: π on lane `i` = `i`. -/
theorem test_pi_sources :
    (pi (Sponge.build fun x y => BitVec.ofNat 64 (x + 5 * y))).toList =
      [0, 6, 12, 18, 24, 3, 9, 10, 16, 22, 1, 7, 13, 19, 20, 4, 5, 11, 17, 23, 2, 8, 14, 15,
       21] := by decide +kernel

/-- V17: χ with lanes 1 and 2 all ones. -/
theorem test_chi_row :
    (chi (Sponge.build fun x y =>
      if (x = 1 ∨ x = 2) ∧ y = 0 then 0xFFFFFFFFFFFFFFFF else 0)).toList =
      [0, 0xFFFFFFFFFFFFFFFF, 0xFFFFFFFFFFFFFFFF, 0, 0xFFFFFFFFFFFFFFFF] ++
        List.replicate 20 0 := by decide +kernel

/-- V19: ι alone. -/
theorem test_iota_last_round :
    (iota Sponge.zero 23).toList = 0x8000000080008008 :: List.replicate 24 0 := by decide +kernel

/-! ### Absorption and padding -/

/-- V2, V30: the padding fixture. -/
theorem test_pad_empty : pad [] = 0x01 :: (List.replicate 134 0 ++ [0x80]) := by decide

/-- V31: `n = 135`, one shared byte. -/
theorem test_pad_135 : pad (List.replicate 135 7) = List.replicate 135 7 ++ [0x81] := by
  decide +kernel

/-- V32: `n = 134`. -/
theorem test_pad_134 : pad (List.replicate 134 7) = List.replicate 134 7 ++ [0x01, 0x80] := by
  decide +kernel

/-! ### Commands -/

/-- One frame of host 3 in flight; id 0x77 is retired, session 0x1234 holds "ab". -/
def demo : State :=
  { cfg := { maxSessions := 2, allowEmptyFinal := true, retiredIdError := .sessionFinalized }
    sessions := [(0x1234, { A := Sponge.zero, buf := [0x61, 0x62], total := 2 })]
    issued := [0x77, 0x1234]
    port := [{ host := 3, obtained := 0, bytes := encode (.update 0x1234 [0x63]) }]
    turns := []
    responses := []
    draws := [0x77, 0x99]
    freeCount := 0
    epoch := 0 }

/-- `demo` with a session that absorbed nothing, and the policy that refuses its FINAL. -/
def demoStrict : State :=
  { demo with
    cfg := { maxSessions := 1, allowEmptyFinal := false, retiredIdError := .unknownSession }
    sessions := [(0x1234, freshSession)] }

/-- V50: the candidate 0x77 is issued already, so the next value is drawn. -/
theorem test_init_opens :
    (initResult demo).responses =
        [{ host := 3, bytes := [0x00, 0x01, 0, 0, 0, 0, 0, 0, 0x78, 0, 0, 0, 0, 0, 0, 0] }] ∧
      findSession (initResult demo).sessions 0x78 = some freshSession ∧
      (initResult demo).issued = [0x77, 0x78, 0x1234] := by decide

/-- V51. -/
theorem test_init_limit :
    initResult demoStrict = { demoStrict with
      port := []
      responses := [{ host := 3, bytes := [0x05, 0x01, 0, 0, 0, 0, 0, 0] }] } := by decide

/-- V20, P2: "ab" then "c". -/
theorem test_update_buffers :
    findSession (updateResult 0x1234 [0x63] demo).sessions 0x1234 =
        some { A := Sponge.zero, buf := [0x61, 0x62, 0x63], total := 3 } ∧
      (updateResult 0x1234 [0x63] demo).responses =
        [{ host := 3, bytes := [0x00, 0x02, 0, 0, 0, 0, 0, 0] }] := by decide

/-- V53, V54: UPDATE on a retired id, under either policy. -/
theorem test_update_retired :
    (updateResult 0x77 [0x61] demo).responses =
        [{ host := 3, bytes := [0x02, 0x02, 0, 0, 0, 0, 0, 0] }] ∧
      (updateResult 0x77 [0x61] demoStrict).responses =
        [{ host := 3, bytes := [0x01, 0x02, 0, 0, 0, 0, 0, 0] }] := by decide

/-- V1: the Keccak-256 of the empty string, "documented" by the source. -/
theorem test_final_empty_digest :
    digestOf freshSession =
      [0xc5, 0xd2, 0x46, 0x01, 0x86, 0xf7, 0x23, 0x3c, 0x92, 0x7e, 0x7d, 0xb2, 0xdc, 0xc7, 0x03,
       0xc0, 0xe5, 0x00, 0xb6, 0x53, 0xca, 0x82, 0x27, 0x3b, 0x7b, 0xfa, 0xd8, 0x04, 0x5d, 0x85,
       0xa4, 0x70] := by
  rw [digestOf_eq_forced]
  decide +kernel

/-- V42: `pattern(135)`, the two pad bits in one byte. -/
theorem test_final_135_digest :
    digestOf { A := Sponge.zero, buf := patternFrom 0 135, total := 135 } =
      [0xcb, 0xdf, 0xd9, 0xde, 0xe5, 0xfa, 0xad, 0x38, 0x18, 0xd6, 0xb0, 0x6f, 0x95, 0xa2, 0x19,
       0xfd, 0x29, 0x0b, 0x0e, 0x17, 0x06, 0xf6, 0xa8, 0x2e, 0x5a, 0x59, 0x5b, 0x9c, 0xe9, 0xfa,
       0xca, 0x62] := by
  rw [digestOf_eq_forced]
  decide +kernel

/-- V59: FINAL of a session that absorbed nothing, refused; the id is retired. -/
theorem test_final_refused :
    (finalResult 0x1234 demoStrict).responses =
        [{ host := 3, bytes := [0x03, 0x03, 0, 0, 0, 0, 0, 0] }] ∧
      (finalResult 0x1234 demoStrict).sessions = [] ∧
      (finalResult 0x1234 demoStrict).issued = [0x77, 0x1234] := by decide

/-- V10: lanes 0, 7, 13 and 24 of `KeccakF` of the zero state. -/
theorem test_permute_zero :
    [0, 7, 13, 24].map (Sponge.lane (keccakF Sponge.zero)) =
      [0xF1258F7940E1DDE7, 0x8C5BDA0CD6192E76, 0x43B831CD0347C826, 0xEAF1FF7B5CECA249] := by
  rw [keccakF_eq_forced]
  decide +kernel

/-! ### Steps -/

/-- The responses and the fault of an outcome, for tests. -/
def seen : Host.Outcome State Fault Refusal → Option Fault × List Response
  | .next t => (none, t.responses)
  | .fault r => (some r, [])
  | .refused _ => (none, [])

/-- V52: UPDATE of id 0, right after reset. -/
theorem test_step_unknown :
    seen (step (State.reset.withFetchWord 64 2)) =
      (none, [{ host := 0, bytes := [0x01, 0x02, 0, 0, 0, 0, 0, 0] }]) := by decide

/-- V58 and V55: the illegal frame is answered with its own opcode byte. -/
theorem test_step_illegal :
    seen (step (State.reset.withFetchWord 64 5)) =
      (none, [{ host := 0, bytes := [0x04, 0x05, 0, 0, 0, 0, 0, 0] }]) := by decide

/-- INIT right after reset: the step is the meaning of INIT, whatever `MAX_SESSIONS` is. -/
theorem test_step_init_is_exec :
    step (State.reset.withFetchWord 64 1) = exec .init (State.reset.withFetchWord 64 1) := rfl

/-- A second UPDATE of the session is sent before the first has its response. -/
def demoOverlap : State := { demo with port := demo.port ++ demo.port }

/-- R236. -/
theorem test_step_overlap : seen (step demoOverlap) = (some .sameSessionOverlap, []) := by decide

/-- R239: the id of the frame in flight was obtained before the last reset. -/
def demoStale : State := { demo with epoch := 1, turns := [.serve 0] }

theorem test_step_stale : seen (step demoStale) = (some .staleSessionId, []) := by decide

/-- R238: delivery in two pieces; the engine waits between them. -/
def demoPieces : State :=
  { demo with
    port := []
    turns := [.send 5 0 [0x03, 0, 0, 0, 0, 0, 0, 0, 0x77, 0], .serve 0,
      .more 0 [0, 0, 0, 0, 0, 0, 0, 0, 0, 0, 0, 0, 0, 0], .serve 0] }

theorem test_pieces_wait : seen (Host.Core.run Sys2Proof.core 2 demoPieces) = (none, []) := by
  decide

theorem test_pieces_join : seen (Host.Core.run Sys2Proof.core 4 demoPieces) =
    (none, [{ host := 5, bytes := [0x02, 0x03, 0, 0, 0, 0, 0, 0] }]) := by decide

/-! ### Text -/

/-- R81: `UPDATE 0x1234, x"6162" ; comment`. -/
theorem test_text_update :
    parseLine ['U', 'P', 'D', 'A', 'T', 'E', ' ', '0', 'x', '1', '2', '3', '4', ',', ' ', 'x',
      quote, '6', '1', '6', '2', quote, ' ', ';', ' ', 'c'] =
      some [.update (.literal 0x1234) (.hex [0x61, 0x62])] := by decide

/-- R81: `a = INIT`, and the pattern of P3. -/
theorem test_text_init_and_pattern :
    parseLine ['a', ' ', '=', ' ', 'I', 'N', 'I', 'T'] = some [.init ['a']] ∧
      parseLine ['H', 'A', 'S', 'H', ' ', 'p', 'a', 't', 't', 'e', 'r', 'n', '(', '1', '.', '.',
        '3', ')'] = some [.hash (.patternRange 1 3)] ∧
      (ByteExpr.patternRange 255 257).bytes = [0xFF, 0x00, 0x01] := by decide

/-! ### The hypotheses of the obligations are met -/

theorem find_single {k sid : SessionId} {q r : Session}
    (h : findSession [(k, q)] sid = some r) : sid = k ∧ r = q := by
  simp only [findSession] at h
  split at h
  · rename_i hk
    exact ⟨hk.symm, (Option.some.inj h).symm⟩
  · cases h

theorem demo_inv : demo.Inv where
  maxSessions_pos := by decide
  sessions_wf := by decide
  issued_wf := by decide
  zero_not_issued := by decide
  open_issued := by
    intro sid r h
    obtain ⟨rfl, rfl⟩ := find_single h
    decide
  open_limit := by decide
  buf_short := by
    intro sid r h
    obtain ⟨rfl, rfl⟩ := find_single h
    decide
  frames_wf := by
    intro f hf
    simp only [demo, List.mem_singleton] at hf
    subst hf
    refine ⟨by decide, fun n hn => ?_⟩
    rw [Laws.FrameLength.update 0x1234 [0x63] (by decide)] at hn
    cases hn
    exact Nat.le_refl _

theorem demoStrict_inv : demoStrict.Inv where
  maxSessions_pos := by decide
  sessions_wf := by decide
  issued_wf := by decide
  zero_not_issued := by decide
  open_issued := by
    intro sid r h
    obtain ⟨rfl, rfl⟩ := find_single h
    decide
  open_limit := by decide
  buf_short := by
    intro sid r h
    obtain ⟨rfl, rfl⟩ := find_single h
    decide
  frames_wf := demo_inv.frames_wf

/-- `demo` with the one session fresh. -/
def demoFresh : State := { demo with sessions := [(0x1234, freshSession)] }

theorem demoFresh_inv : demoFresh.Inv where
  maxSessions_pos := by decide
  sessions_wf := by decide
  issued_wf := by decide
  zero_not_issued := by decide
  open_issued := demoStrict_inv.open_issued
  open_limit := by decide
  buf_short := demoStrict_inv.buf_short
  frames_wf := demo_inv.frames_wf

/-- ResetInputEmptiesTheRegistry, ResetInputDropsTheFramesInFlight. -/
theorem witness_reset_turn :
    State.overlapping { demo with turns := [.reset] } = false ∧
      ({ demo with turns := [.reset] } : State).turns = .reset :: [] := by decide

/-- A next state of a step, from one that is not a fault. -/
theorem step_next_of (s : State) (h : s.overlapping = false)
    (t : State) (ht : s.turns = [.serve 0]) (he : State.serve { s with turns := [] } 0 = .next t) :
    step s = .next t := by
  simp only [step, h, ht]
  exact he

/-- `demo` with the engine's turn listed. -/
def demoTurn : State := { demo with turns := [.serve 0] }

theorem demoTurn_inv : demoTurn.Inv :=
  { maxSessions_pos := demo_inv.maxSessions_pos, sessions_wf := demo_inv.sessions_wf
    issued_wf := demo_inv.issued_wf, zero_not_issued := demo_inv.zero_not_issued
    open_issued := demo_inv.open_issued, open_limit := demo_inv.open_limit
    buf_short := demo_inv.buf_short, frames_wf := demo_inv.frames_wf }

theorem demoTurn_decodes :
    decode (encode (.update 0x1234 [0x63])) = .ok (.update 0x1234 [0x63]) := by decide

theorem demoTurn_step : step demoTurn =
    .next (updateResult 0x1234 [0x63] { demoTurn with turns := [] }) := by
  refine step_next_of _ (by decide) _ rfl ?_
  simp only [State.serve, demoTurn, demo, List.getElem?_cons_zero, demoTurn_decodes]
  rfl

/-- EveryStepKeepsTheRegistryInvariant, NoStepChangesTheConfiguration,
RegistryChangesOnlyWithAResponse, IssuedIdsAreNeverReopened: a step that changes the registry. -/
theorem witness_step : ∃ t, demoTurn.Inv ∧ step demoTurn = .next t ∧
    (∀ ts, demoTurn.turns ≠ .reset :: ts) ∧ (0x77 : SessionId) ∈ demoTurn.issued ∧
    findSession demoTurn.sessions 0x77 = none :=
  ⟨_, demoTurn_inv, demoTurn_step, by simp [demoTurn], by decide, by decide⟩

/-- RegistryChangesOnlyWithAResponse, the case of no response: a reset. -/
theorem witness_step_reset : ∃ t, step { demo with turns := [.reset] } = .next t ∧
    t.responses = demo.responses := ⟨_, rfl, by decide⟩

/-- ResponsesHaveTheirForm. -/
theorem witness_response : ∃ t r, step demoTurn = .next t ∧ t.responses = demoTurn.responses ++ [r] ∧
    r.bytes.head? = some 0x00 :=
  ⟨_, _, demoTurn_step, rfl, by decide⟩

/-- InitOpensOneFreshZeroedSession, InitCanDrawEveryFreshId, HashCommandsGiveKeccak256. -/
theorem witness_init : demo.Inv ∧ demo.sessions.length < demo.cfg.maxSessions ∧
    ((0x99 : SessionId) ≠ 0 ∧ (0x99 : SessionId) ∉ demo.issued) ∧
    demo.cfg.allowEmptyFinal = true := ⟨demo_inv, by decide, by decide, rfl⟩

/-- InitAtTheLimitChangesNothing, at the session limit. -/
theorem witness_limit : demoStrict.cfg.maxSessions ≤ demoStrict.sessions.length := by decide

theorem all_ids_listed (n : Nat) (h : n = 2 ^ 64) : ∃ l : List SessionId, ∀ v, v ∈ l :=
  ⟨(List.range n).map (BitVec.ofNat 64), fun v =>
    List.mem_map.mpr ⟨v.toNat, List.mem_range.mpr (h ▸ v.isLt), by simp⟩⟩

/-- InitAtTheLimitChangesNothing, with every nonzero id issued. -/
theorem witness_exhausted : ∃ s : State, ∀ v : SessionId, v ≠ 0 → v ∈ s.issued := by
  obtain ⟨l, hl⟩ := all_ids_listed _ rfl
  exact ⟨{ demo with issued := l }, fun v _ => hl v⟩

/-- UpdateAbsorbsTheChunk, FinalReturnsTheDigestAndRetires. -/
theorem witness_open : demo.Inv ∧ findSession demo.sessions 0x1234 =
      some { A := Sponge.zero, buf := [0x61, 0x62], total := 2 } ∧
    (demo.cfg.allowEmptyFinal = true ∨ (2 : U64) ≠ 0) := ⟨demo_inv, by decide, .inl rfl⟩

/-- FinalReturnsTheDigestAndRetires under the strict policy. -/
theorem witness_open_strict :
    ({ demo with cfg := demoStrict.cfg } : State).cfg.allowEmptyFinal = false ∧
      ∃ r, findSession ({ demo with cfg := demoStrict.cfg } : State).sessions 0x1234 = some r ∧
        r.total ≠ 0 := ⟨rfl, _, rfl, by decide⟩

/-- ClosedIdGetsTheLookupError: a retired id and one never issued. -/
theorem witness_closed : findSession demo.sessions 0x77 = none ∧ (0x77 : SessionId) ∈ demo.issued ∧
    findSession demo.sessions 0 = none ∧ (0 : SessionId) ∉ demo.issued := by decide

/-- EmptyFinalIsRefusedAndRetires. -/
theorem witness_empty : demoStrict.Inv ∧
    findSession demoStrict.sessions 0x1234 = some freshSession ∧
    demoStrict.cfg.allowEmptyFinal = false ∧ freshSession.total = 0 :=
  ⟨demoStrict_inv, by decide, rfl, rfl⟩

/-- ByteCounterReachesNoDigest. -/
theorem witness_counter : demo.cfg.allowEmptyFinal = true := rfl

/-- DigestIsKeccak256OfTheConcatenation: two chunks with another host's command between them. -/
theorem witness_digest : demoFresh.Inv ∧
    findSession demoFresh.sessions 0x1234 = some freshSession ∧
    (∀ i ∈ [Instr.update 0x1234 [0x61], .init, .final 0x77, .update 0x1234 [0x62]],
      i ≠ .final 0x1234) ∧
    (demoFresh.cfg.allowEmptyFinal = true ∨ BitVec.ofNat 64 (bytesFor 0x1234
      [Instr.update 0x1234 [0x61], .init, .final 0x77, .update 0x1234 [0x62]]).length ≠ 0) :=
  ⟨demoFresh_inv, by decide, by decide, .inl rfl⟩

/-- DigestIsKeccak256OfTheConcatenation under the strict policy, with at least one byte. -/
theorem witness_digest_strict : demoStrict.Inv ∧
    findSession demoStrict.sessions 0x1234 = some freshSession ∧
    (∀ i ∈ [Instr.update 0x1234 [0x61]], i ≠ .final 0x1234) ∧
    BitVec.ofNat 64 (bytesFor 0x1234 [Instr.update 0x1234 [0x61]]).length ≠ 0 :=
  ⟨demoStrict_inv, by decide, by decide, by decide⟩

/-- StreamingAbsorberGivesTheSameDigest, at the longest buffer. -/
theorem witness_stream :
    ({ A := Sponge.zero, buf := List.replicate 135 1, total := 0 } : Session).buf.length ≤ 135 := by
  decide +kernel

/-- CommandsLeaveOtherSessionsAlone. -/
theorem witness_other : ∃ t, (0x1234 : SessionId) ∈ demo.issued ∧
    namesSession 0x1234 (.update 0x77 []) = false ∧ exec (.update 0x77 []) demo = .next t :=
  ⟨_, by decide, by decide, rfl⟩

/-- OutcomeDependsOnTheNamedSessionOnly: the states differ in another session. -/
theorem witness_two_runs : ∃ t1 t2,
    RegistryWf demoFresh.sessions ∧
    RegistryWf (putSession 0x2000 freshSession demoFresh.sessions) ∧
    namesSession 0x1234 (.final 0x1234) = true ∧
    findSession demoFresh.sessions 0x1234 =
      findSession (putSession 0x2000 freshSession demoFresh.sessions) 0x1234 ∧
    exec (.final 0x1234) demoFresh = .next t1 ∧
    exec (.final 0x1234)
      { demoFresh with sessions := putSession 0x2000 freshSession demoFresh.sessions } = .next t2 :=
  ⟨_, _, by decide, by decide, by decide, by decide, rfl, rfl⟩

/-- CommandsOnDifferentSessionsCommute. -/
theorem witness_commute : demo.Inv ∧ (0x1234 : SessionId) ≠ 0x77 ∧
    namesSession 0x1234 (.update 0x1234 [1]) = true ∧ namesSession 0x77 (.final 0x77) = true :=
  ⟨demo_inv, by decide, by decide, by decide⟩

/-- The strict engine about to execute a FINAL of the session that absorbed nothing. -/
def demoRefused : State :=
  { demoStrict with
    port := [{ host := 3, obtained := 0, bytes := encode (.final 0x1234) }]
    turns := [.serve 0] }

theorem demoRefused_decodes : decode (encode (.final 0x1234)) = .ok (.final 0x1234) := by decide

/-- ErrorsChangeNoSession, the case of `EmptySessionError`, with its right side. -/
theorem witness_error : ∃ t r, step demoRefused = .next t ∧
    t.responses = demoRefused.responses ++ [r] ∧ r.bytes.head? ≠ some 0x00 ∧
    r.bytes.head? = some 0x03 ∧ findSession demoRefused.sessions 0x1234 = some freshSession ∧
    demoRefused.cfg.allowEmptyFinal = false ∧ freshSession.total = 0 := by
  refine ⟨finalResult 0x1234 { demoRefused with turns := [] },
    { host := 3, bytes := [0x03, 0x03, 0, 0, 0, 0, 0, 0] }, ?_, by decide, by decide, by decide,
    by decide, rfl, rfl⟩
  refine step_next_of _ (by decide) _ rfl ?_
  simp only [State.serve, demoRefused, List.getElem?_cons_zero, demoRefused_decodes]
  rfl

/-- ErrorsChangeNoSession and ResponsesHaveTheirForm, an error that changes no session. -/
theorem witness_error_kept : ∃ t r, step (State.reset.withFetchWord 64 2) = .next t ∧
    t.responses = (State.reset.withFetchWord 64 2).responses ++ [r] ∧
    r.bytes.head? ≠ some 0x00 ∧ r.bytes.head? ≠ some 0x03 :=
  ⟨_, { host := 0, bytes := [0x01, 0x02, 0, 0, 0, 0, 0, 0] }, rfl, by decide, by decide, by decide⟩

/-- StepExecutesTheDecodedCommand, and StaleIdIsAFault with the epoch moved on. -/
theorem witness_decoded : demoTurn.overlapping = false ∧ demoTurn.turns = .serve 0 :: [] ∧
    (∃ f, demoTurn.port[0]? = some f ∧ decode f.bytes = .ok (.update 0x1234 [0x63]) ∧
      staleUse demoTurn.epoch f.obtained (.update 0x1234 [0x63]) = false) :=
  ⟨by decide, rfl, _, rfl, by decide, by decide⟩

/-- StaleIdIsAFault. -/
theorem witness_stale : demoStale.overlapping = false ∧ demoStale.turns = .serve 0 :: [] ∧
    (∃ f, demoStale.port[0]? = some f ∧ decode f.bytes = .ok (.update 0x1234 [0x63]) ∧
      namesSession 0x1234 (.update 0x1234 [0x63]) = true ∧ f.obtained < demoStale.epoch) :=
  ⟨by decide, rfl, _, rfl, by decide, by decide, by decide⟩

/-- Two whole frames in flight. -/
def demoTwo : State :=
  { demo with port := demo.port ++ [{ host := 4, obtained := 0, bytes := encode .init }] }

/-- StepWithoutATurnServesSomeWholeFrame. -/
theorem witness_whole : demoTwo.overlapping = false ∧ demoTwo.turns = [] ∧
    ∀ f ∈ demoTwo.port, isWhole f.bytes = true := by decide

/-- A partly delivered frame. -/
def demoPart : State :=
  { demo with port := [{ host := 6, obtained := 0, bytes := [0x01] }], turns := [.serve 0] }

/-- Beside an UPDATE of the open session: two FINALs of one retired id and a partly delivered
UPDATE of id 0. -/
def demoAnswerable : State :=
  { demo with
    port := demo.port ++
      [{ host := 4, obtained := 0, bytes := encode (.final 0x77) },
       { host := 5, obtained := 0, bytes := (encode (.update 0 [1])).take 24 },
       { host := 6, obtained := 0, bytes := encode (.final 0x77) }] }

theorem demoAnswerable_names :
    demoAnswerable.port.map (fun f => sessionNamed f.bytes) =
      [some 0x1234, some 0x77, some 0, some 0x77] := by decide

theorem demoAnswerable_answerable : demoAnswerable.Answerable where
  ids_current := fun _ _ _ _ _ => Nat.zero_le _
  names_apart := by
    have h : (demoAnswerable.port.map fun f => sessionNamed f.bytes).Pairwise fun a b =>
        a = b → a = some 0x77 := by
      rw [demoAnswerable_names]
      decide
    refine (List.pairwise_map.mp h).imp fun hab sid ha hb => ?_
    have h77 := hab (ha.trans hb.symm)
    obtain rfl : sid = 0x77 := Option.some.inj (ha.symm.trans h77)
    exact ⟨by decide, .inr (by decide)⟩

/-- EveryWholeFrameIsAnswered, and ServingStepsAnswerOneFrameAndStayAnswerable with no turn
listed. -/
theorem witness_liveness : demoAnswerable.turns = [] ∧ demoAnswerable.Answerable ∧
    (∃ f ∈ demoAnswerable.port, isWhole f.bytes = true) ∧
    ∃ f ∈ demoAnswerable.port, isWhole f.bytes = false :=
  ⟨rfl, demoAnswerable_answerable, by decide, by decide⟩

/-- EveryWholeFrameIsAnswered, the last clause: every frame in flight is whole. -/
theorem witness_run_ends : demo.turns = [] ∧ demo.Answerable ∧
    ∀ f ∈ demo.port, isWhole f.bytes = true :=
  ⟨rfl, ⟨fun _ _ _ _ _ => Nat.zero_le _, List.pairwise_singleton _ _⟩, by decide⟩

/-- ServingStepsAnswerOneFrameAndStayAnswerable with the engine's turn listed. -/
theorem witness_serving : State.Answerable { demoAnswerable with turns := [.serve 1] } ∧
    ∃ f, demoAnswerable.port[1]? = some f ∧ isWhole f.bytes = true :=
  ⟨⟨demoAnswerable_answerable.ids_current, demoAnswerable_answerable.names_apart⟩, _, rfl,
    by decide⟩

/-- SendTurnAddsTheFramesOfItsBytes. -/
theorem witness_send : ({ demo with turns := [.send 5 0 [0x03]] } : State).overlapping = false ∧
    ({ demo with turns := [.send 5 0 [0x03]] } : State).turns = .send 5 0 [0x03] :: [] := by decide

/-- MoreTurnContinuesOneFrame: a frame in flight and none. -/
theorem witness_more : ({ demoPart with turns := [.more 0 [0]] } : State).overlapping = false ∧
    ({ demoPart with turns := [.more 0 [0]] } : State).turns = .more 0 [0] :: [] ∧
    (∃ f, demoPart.port[0]? = some f) ∧ demoPart.port[1]? = none :=
  ⟨by decide, rfl, ⟨_, rfl⟩, rfl⟩

/-- SentBytesAreCutIntoFrames: a whole frame and a part of the next (R76). -/
theorem test_cut_into_frames :
    (framesFrom 5 0 (encode (.update 1 [7]) ++ [0x03, 0])).map Frame.bytes =
      [[0x02, 0, 0, 0, 0, 0, 0, 0, 0x01, 0, 0, 0, 0, 0, 0, 0, 0x01, 0, 0, 0, 0, 0, 0, 0, 7],
       [0x03, 0]] := by decide

/-- An illegal frame with the engine's turn listed (V55). -/
def demoIllegal : State :=
  { demo with
    port := [{ host := 6, obtained := 0, bytes := List.replicate 24 0 }], turns := [.serve 0] }

/-- IllegalFrameIsAnsweredOnly. -/
theorem witness_illegal : demoIllegal.overlapping = false ∧ demoIllegal.turns = .serve 0 :: [] ∧
    ∃ f, demoIllegal.port[0]? = some f ∧ isWhole f.bytes = true ∧
      ∀ i, decode f.bytes ≠ .ok i := by
  refine ⟨by decide, rfl, _, rfl, by decide, fun i h => ?_⟩
  rw [test_decode_zero_header] at h
  cases h

/-- PartlyDeliveredFrameWaits. -/
theorem witness_part : demoPart.overlapping = false ∧ demoPart.turns = .serve 0 :: [] ∧
    ∃ f, demoPart.port[0]? = some f ∧ isWhole f.bytes = false :=
  ⟨by decide, rfl, _, rfl, by decide⟩

/-- IdleEngineKeepsEverything. -/
theorem witness_idle : State.overlapping { demoPart with turns := [] } = false ∧
    ∀ f ∈ demoPart.port, isWhole f.bytes = false := by decide

/-- FrameInTwoPiecesIsTheFrame: cut inside the header, and inside the payload. -/
theorem witness_pieces : frameLength (encode (.update 0x1234 [0x61, 0x62])) =
      some (encode (.update 0x1234 [0x61, 0x62])).length ∧
    0 < 1 ∧ 1 < (encode (.update 0x1234 [0x61, 0x62])).length ∧
    25 < (encode (.update 0x1234 [0x61, 0x62])).length := by decide

/-- OverlapFaultsExactlyOnTwoFramesOfOneSession, the right side. -/
theorem witness_overlap : ∃ f g r, demoOverlap.port[0]? = some f ∧ demoOverlap.port[1]? = some g ∧
    sessionNamed f.bytes = some 0x1234 ∧ sessionNamed g.bytes = some 0x1234 ∧
    findSession demoOverlap.sessions 0x1234 = some r :=
  ⟨_, _, _, rfl, rfl, by decide, by decide, rfl⟩

/-- OnlyHostMisuseStopsTheMachine, each fault. -/
theorem witness_faults : step demoOverlap = .fault .sameSessionOverlap ∧
    step demoStale = .fault .staleSessionId := by
  constructor
  · rw [step, if_pos (by decide)]
  · rfl

/-- DecodeReadsBackEveryEncodedCommand, DecodedFrameIsTheEncoding. -/
theorem witness_wf : (Instr.update 5 [1, 2]).wf = true ∧
    (Instr.permute (List.replicate 200 0)).wf = true ∧
    decode (encode (.final 5)) = .ok (.final 5) := by
  decide +kernel

/-- DecoderAcceptsExactlyTheOpcodeMap: a command, and a frame that breaks R74. -/
theorem witness_header :
    (∃ h, headerOf (encode (.final 5)) = some h ∧ isWhole (encode (.final 5)) = true) ∧
    ∃ h, headerOf (frameOf 3 5 1 [0]) = some h ∧ isWhole (frameOf 3 5 1 [0]) = true ∧
      ¬(h.opc = 0x03 ∧ h.w2 = 0) :=
  ⟨⟨_, rfl, by decide⟩, _, headerOf_frameOf 3 5 1 [0], by decide, by decide⟩

/-- AbsorbBlockXorsTheRateAndPermutes, PadWritesEveryByte and PadIsInjective at 0 and 135,
BytesAndLanesAreInverse, MemWriteChangesOneByte and RotationMovesEveryBit at their last indices. -/
theorem witness_ranges : (List.replicate 136 (0 : Byte)).length = 136 ∧
    ([] : List Byte).length ≤ 135 ∧ (List.replicate 135 (0 : Byte)).length ≤ 135 ∧
    (List.replicate 200 (0 : Byte)).length = 200 ∧ 199 < 200 ∧ 0 < 200 ∧ 63 < 64 := by
  decide +kernel

end Sys2Proof.Machine.Tests
end

section
/-! The registry after reset, and the record that INIT creates. -/

namespace Sys2Proof.Machine

/-- Every lane of the record that INIT creates is zero (R38). -/
@[simp] theorem freshSession_lane (i : Nat) : Sponge.lane freshSession.A i = 0 :=
  Sponge.lane_zero i

/-- Settles O1: reset and INIT's record name the empty values of R38, and the lanes of the record
are those of the zero sponge state. -/
theorem resetHasNoSessionAndInitFieldsAreZero :
    Obligations.ResetHasNoSessionAndInitFieldsAreZero := by
  have fresh_lanes : ∀ i < 25, Sponge.lane freshSession.A i = 0 := fun i _ => freshSession_lane i
  exact ⟨rfl, rfl, fresh_lanes, rfl, rfl⟩

end Sys2Proof.Machine
end

section
/-! A word made of bytes has these bytes, and so has a frame made of such words; the decoding of a
frame whose `W0` is reserved. -/

namespace Sys2Proof

/-- Byte `k` of a word made of bytes (R71). -/
theorem u64OfBytes_extractLsb' (bytes : List Byte) (k : Nat) (hk : k < 8) :
    (u64OfBytes bytes).extractLsb' (8 * k) 8 = bytes.getD k 0 := by
  induction bytes generalizing k with
  | nil => simp [u64OfBytes]
  | cons b bs ih =>
    apply BitVec.eq_of_getLsbD_eq
    intro j hj
    cases k with
    | zero => simp [u64OfBytes, hj, show j < 64 by omega]
    | succ k =>
      have next_byte := congrArg (BitVec.getLsbD · j) (ih k (by omega))
      have above : b.getLsbD (8 * (k + 1) + j) = false := BitVec.getLsbD_of_ge _ _ (by omega)
      have same_bit : 8 * (k + 1) + j - 8 = 8 * k + j := by omega
      simpa [u64OfBytes, hj, above, same_bit, show 8 * (k + 1) + j < 64 by omega,
        show ¬8 * (k + 1) + j < 8 by omega, show 8 * k + j < 64 by omega] using next_byte

/-- Eight bytes read back from the word they make (R71): the converse of `u64OfBytes_bytesOfU64`. -/
theorem bytesOfU64_u64OfBytes {bytes : List Byte} (h : bytes.length = 8) :
    bytesOfU64 (u64OfBytes bytes) = bytes := by
  apply List.ext_getElem
  · rw [bytesOfU64_length, h]
  · intro k hk hk'
    rw [h] at hk'
    simp [bytesOfU64, u64OfBytes_extractLsb' bytes k hk', h, hk']

/-- A frame of three words made of bytes is these bytes, then the payload (R71). -/
theorem frameOf_u64OfBytes {b0 b1 b2 : List Byte} (h0 : b0.length = 8) (h1 : b1.length = 8)
    (h2 : b2.length = 8) (payload : List Byte) :
    frameOf (u64OfBytes b0) (u64OfBytes b1) (u64OfBytes b2) payload =
      b0 ++ b1 ++ b2 ++ payload := by
  rw [frameOf, bytesOfU64_u64OfBytes h0, bytesOfU64_u64OfBytes h1, bytesOfU64_u64OfBytes h2]

/-- A frame with its `W2` payload bytes is decoded by its three words and the payload (R75, R76). -/
theorem decode_frameOf {w0 w1 w2 : U64} {payload : List Byte} (h : payload.length = w2.toNat) :
    decode (frameOf w0 w1 w2 payload) = decodeHeader { w0 := w0, w1 := w1, w2 := w2 } payload := by
  have whole : isWhole (frameOf w0 w1 w2 payload) = true := by
    simp [isWhole, frameLength, headerOf_frameOf, h]
  obtain ⟨hd, hhd, -, hdec⟩ := decode_whole whole
  rw [headerOf_frameOf] at hhd
  cases hhd
  rw [hdec, frameOf_drop, ← h, List.take_length]

/-- A `W0` that is no command's, with no reserved bit set, has a reserved opcode (R73, R79). -/
theorem decodeHeader_reservedOpcode {h : Header} (hw0 : ∀ i : Instr, h.w0 ≠ i.w0)
    (hrsv : h.rsv = 0) (payload : List Byte) :
    decodeHeader h payload = .error .reservedOpcode := by
  have no_init : h.w0 ≠ 1 := hw0 .init
  have no_update : h.w0 ≠ 2 := hw0 (.update 0 [])
  have no_final : h.w0 ≠ 3 := hw0 (.final 0)
  have no_permute : h.w0 ≠ 4 := hw0 (.permute [])
  rw [decodeHeader, if_neg no_init, if_neg no_update, if_neg no_final, if_neg no_permute,
    if_neg (not_not_intro hrsv)]

/-- The opcode 05 is no command's (R79). -/
theorem w0_ne_five (i : Instr) : (0x05 : U64) ≠ i.w0 := by
  cases i <;> simp [Instr.w0]

end Sys2Proof

namespace Sys2Proof.Machine

/-- Settles O41: each word of an example frame is made of the bytes the spec gives for it, the
response headers are those of R77, and opcode 05 is the `W0` of no command. -/
theorem specExamplesAreTheFrames : Obligations.SpecExamplesAreTheFrames := by
  have reserved_frame : [0x05, 0, 0, 0, 0, 0, 0, 0] ++ List.replicate 16 0 =
      frameOf 0x05 0 0 [] :=
    (frameOf_u64OfBytes (b0 := [0x05, 0, 0, 0, 0, 0, 0, 0]) (b1 := List.replicate 8 0)
      (b2 := List.replicate 8 0) rfl rfl rfl []).symm
  refine ⟨?init, ?update, ?final, ?permute, ?opened, ?unknown, ?reserved, ?illegal⟩
  case init =>
    exact frameOf_u64OfBytes (b0 := [0x01, 0, 0, 0, 0, 0, 0, 0]) (b1 := List.replicate 8 0)
      (b2 := List.replicate 8 0) rfl rfl rfl []
  case update =>
    exact frameOf_u64OfBytes (b0 := [0x02, 0, 0, 0, 0, 0, 0, 0])
      (b1 := [0x34, 0x12, 0, 0, 0, 0, 0, 0]) (b2 := [0x03, 0, 0, 0, 0, 0, 0, 0])
      rfl rfl rfl [0x61, 0x62, 0x63]
  case final =>
    exact frameOf_u64OfBytes (b0 := [0x03, 0, 0, 0, 0, 0, 0, 0])
      (b1 := [0x34, 0x12, 0, 0, 0, 0, 0, 0]) (b2 := List.replicate 8 0) rfl rfl rfl []
  case permute =>
    exact frameOf_u64OfBytes (b0 := [0x04, 0, 0, 0, 0, 0, 0, 0]) (b1 := List.replicate 8 0)
      (b2 := [0xC8, 0, 0, 0, 0, 0, 0, 0]) rfl rfl rfl (List.replicate 200 0)
  case opened =>
    have id_bytes : bytesOfU64 0x1234 = [0x34, 0x12, 0, 0, 0, 0, 0, 0] :=
      bytesOfU64_u64OfBytes (bytes := [0x34, 0x12, 0, 0, 0, 0, 0, 0]) rfl
    rw [responseBytes_eq, id_bytes]
    rfl
  case unknown => exact responseBytes_eq .unknownSession 0x03 []
  case reserved =>
    rw [reserved_frame, decode_frameOf rfl]
    exact decodeHeader_reservedOpcode w0_ne_five rfl []
  case illegal => exact responseBytes_eq .illegalCommand 0x05 []

end Sys2Proof.Machine
end

section
/-! π as a motion of whole lanes (R106). -/

namespace Sys2Proof.Machine

theorem Sponge.lane_eq_at (A : Sponge) {i : Nat} (h : i < 25) :
    Sponge.lane A i = Sponge.at A (i % 5) (i / 5) := by
  rw [Sponge.at, show i % 5 % 5 + 5 * (i / 5 % 5) = i by omega]

/-- π by the place a lane goes to (R106). -/
theorem pi_at_source (A : Sponge) (x y : Nat) :
    Sponge.at (pi A) y (2 * x + 3 * y) = Sponge.at A x y := by
  rw [pi_at]
  exact Sponge.at_congr A (by omega) rfl

/-- π by lane numbers (R106): the lane number from which lane `i` comes. -/
theorem lane_pi (A : Sponge) {i : Nat} (h : i < 25) :
    Sponge.lane (pi A) i = Sponge.lane A ((i % 5 + 3 * (i / 5)) % 5 + 5 * (i % 5)) := by
  rw [Sponge.lane_eq_at (pi A) h, pi_at, Sponge.at, Nat.mod_mod]

/-- Settles O44: the second form is the definition, the first is its inverse, and the table lists
the lane numbers of `lane_pi`. -/
theorem piMovesWholeLanes : Obligations.PiMovesWholeLanes := by
  intro A
  refine ⟨fun x _ y _ => pi_at_source A x y, fun X _ Y _ => pi_at A X Y, fun i hi => ?_⟩
  rw [lane_pi A hi]
  congr 1
  decide +revert

end Sys2Proof.Machine
end

section
/-! The permutation is a bijection on states (R112): each step of the round is injective, and there
are finitely many states. -/

namespace Sys2Proof.Machine

open Function

/-! ### States and rotations -/

theorem Sponge.finite : Finite Sponge :=
  Finite.of_injective (fun A (i : Fin 25) => Sponge.lane A i) fun _ _ same_lanes =>
    Sponge.ext_lane fun i hi => congrFun same_lanes ⟨i, hi⟩

theorem Sponge.bijective_of_injective {f : Sponge → Sponge} (h : Injective f) : Bijective f :=
  have := Sponge.finite
  Finite.injective_iff_bijective.mp h

@[simp] theorem Sponge.at_add_five (A : Sponge) (x y : Nat) :
    Sponge.at A (x + 5) y = Sponge.at A x y :=
  Sponge.at_congr A (by omega) rfl

/-- Bit `i` of a left rotation (R11), for a whole turn too. -/
theorem getLsbD_rotl64 (a : Lane) {n i : Nat} (hn : n ≤ 64) (hi : i < 64) :
    (rotl64 a n).getLsbD i = if i < n then a.getLsbD (64 - n + i) else a.getLsbD (i - n) := by
  rw [rotl64, BitVec.getLsbD_or, BitVec.getLsbD_shiftLeft, BitVec.getLsbD_ushiftRight]
  by_cases h : i < n
  · simp [h]
  · have above : a.getLsbD (64 - n + i) = false := BitVec.getLsbD_of_ge a _ (by omega)
    simp [hi, h, above]

@[simp] theorem rotl64_zero (a : Lane) : rotl64 a 0 = a :=
  BitVec.eq_of_getLsbD_eq fun _ hi => getLsbD_rotl64 a (Nat.zero_le 64) hi

@[simp] theorem rotl64_whole_turn (a : Lane) : rotl64 a 64 = a := by
  apply BitVec.eq_of_getLsbD_eq
  intro i hi
  rw [getLsbD_rotl64 a le_rfl hi, if_pos hi, Nat.sub_self, Nat.zero_add]

theorem rotl64_xor (a b : Lane) {n : Nat} (hn : n ≤ 64) :
    rotl64 (a ^^^ b) n = rotl64 a n ^^^ rotl64 b n := by
  apply BitVec.eq_of_getLsbD_eq
  intro i hi
  simp only [BitVec.getLsbD_xor, getLsbD_rotl64 _ hn hi]
  split <;> rfl

theorem rotl64_rotl64 (a : Lane) {m n : Nat} (h : m + n ≤ 64) :
    rotl64 (rotl64 a m) n = rotl64 a (m + n) := by
  apply BitVec.eq_of_getLsbD_eq
  intro i hi
  rw [getLsbD_rotl64 _ (by omega) hi, getLsbD_rotl64 _ h hi]
  split
  case isTrue wrapped =>
    rw [getLsbD_rotl64 _ (by omega) (by omega), if_neg (by omega), if_pos (by omega),
      show 64 - n + i - m = 64 - (m + n) + i by omega]
  case isFalse kept =>
    rw [getLsbD_rotl64 _ (by omega) (by omega), show 64 - m + (i - n) = 64 - (m + n) + i by omega,
      show i - n - m = i - (m + n) by omega]
    simp only [show i - n < m ↔ i < m + n by omega]

/-- The rotation by `64 - n` completes the turn, so it undoes the rotation by `n`. -/
theorem rotl64_injective {n : Nat} (hn : n ≤ 64) : Injective fun a => rotl64 a n := by
  have undone : ∀ a, rotl64 (rotl64 a n) (64 - n) = a := fun a => by
    rw [rotl64_rotl64 a (by omega), show n + (64 - n) = 64 by omega, rotl64_whole_turn]
  exact LeftInverse.injective (g := fun a => rotl64 a (64 - n)) undone

@[simp] theorem columnParity_add_five (A : Sponge) (x : Nat) :
    columnParity A (x + 5) = columnParity A x :=
  columnParity_congr A (by omega)

/-! ### θ

Over GF(2) the square of a sum is the sum of the squares, so θ done twice is θ with its column
distances and its rotation doubled. After six doublings the rotation is a whole turn, and three of
these maps cancel: θ done 192 times is the identity. -/

/-- θ with the masks taken `m` columns away and rotated by `n`. -/
def thetaBy (m n : Nat) (A : Sponge) : Sponge :=
  Sponge.build fun x y =>
    Sponge.at A x y ^^^ (columnParity A (x + 4 * m) ^^^ rotl64 (columnParity A (x + m)) n)

theorem theta_eq_thetaBy : theta = thetaBy 1 1 := rfl

theorem thetaBy_at (m n : Nat) (A : Sponge) (x y : Nat) :
    Sponge.at (thetaBy m n A) x y = Sponge.at A x y ^^^
      (columnParity A (x + 4 * m) ^^^ rotl64 (columnParity A (x + m)) n) := by
  simp only [thetaBy, Sponge.at_build, Sponge.at_mod_left, Sponge.at_mod_right]
  rw [columnParity_congr A (show (x % 5 + 4 * m) % 5 = (x + 4 * m) % 5 by omega),
    columnParity_congr A (show (x % 5 + m) % 5 = (x + m) % 5 by omega)]

/-- A column has five lanes, so its parity takes up the mask once. -/
theorem columnParity_thetaBy (m n : Nat) (A : Sponge) (x : Nat) :
    columnParity (thetaBy m n A) x = columnParity A x ^^^
      (columnParity A (x + 4 * m) ^^^ rotl64 (columnParity A (x + m)) n) := by
  rw [columnParity]
  simp only [thetaBy_at]
  rw [columnParity.eq_def A x]
  generalize columnParity A (x + 4 * m) ^^^ rotl64 (columnParity A (x + m)) n = mask
  calc
    _ = (mask ^^^ mask) ^^^ (mask ^^^ mask) ^^^
        (Sponge.at A x 0 ^^^ Sponge.at A x 1 ^^^ Sponge.at A x 2 ^^^ Sponge.at A x 3 ^^^
          Sponge.at A x 4 ^^^ mask) := by ac_rfl
    _ = _ := by simp only [BitVec.xor_self, BitVec.zero_xor]

/-- What is left of two masks, one after the other, when the masks cancel. -/
theorem xor_masks_cancel (a c r c₂ s r₂ : Lane) :
    (a ^^^ (c ^^^ r)) ^^^ ((c ^^^ (c₂ ^^^ s)) ^^^ (r ^^^ (s ^^^ r₂))) = a ^^^ (c₂ ^^^ r₂) := by
  calc
    _ = (c ^^^ c) ^^^ (r ^^^ r) ^^^ (s ^^^ s) ^^^ (a ^^^ (c₂ ^^^ r₂)) := by ac_rfl
    _ = a ^^^ (c₂ ^^^ r₂) := by simp only [BitVec.xor_self, BitVec.zero_xor]

theorem thetaBy_thetaBy (m : Nat) {n : Nat} (hn : 2 * n ≤ 64) (A : Sponge) :
    thetaBy m n (thetaBy m n A) = thetaBy (2 * m) (2 * n) A := by
  refine Sponge.ext_at fun x _ y _ => ?_
  have crossed : x + m + 4 * m = x + 4 * m + m := by omega
  simp only [thetaBy_at, columnParity_thetaBy, rotl64_xor _ _ (show n ≤ 64 by omega),
    rotl64_rotl64 _ (show n + n ≤ 64 by omega), crossed, two_mul, mul_add, ← add_assoc]
  exact xor_masks_cancel ..

theorem thetaBy_whole_turn : thetaBy 64 64 = thetaBy 4 0 := by
  funext A
  refine Sponge.ext_at fun x _ y _ => ?_
  rw [thetaBy_at, thetaBy_at, rotl64_whole_turn, rotl64_zero,
    columnParity_congr A (show (x + 4 * 64) % 5 = (x + 4 * 4) % 5 by omega),
    columnParity_congr A (show (x + 64) % 5 = (x + 4) % 5 by omega)]

/-- Without a rotation, the masks of three applications cancel. -/
theorem thetaBy_four_thrice (A : Sponge) :
    thetaBy 4 0 (thetaBy 4 0 (thetaBy 4 0 A)) = A := by
  rw [thetaBy_thetaBy 4 (Nat.zero_le 64)]
  refine Sponge.ext_at fun x _ y _ => ?_
  simp only [thetaBy_at, columnParity_thetaBy, rotl64_zero, add_assoc, Nat.reduceMul, Nat.reduceAdd,
    columnParity_add_five]
  generalize columnParity A (x + 1) = c₁, columnParity A (x + 2) = c₂,
    columnParity A (x + 3) = c₃, columnParity A (x + 4) = c₄
  calc
    _ = (c₁ ^^^ c₁) ^^^ (c₂ ^^^ c₂) ^^^ (c₃ ^^^ c₃) ^^^ (c₄ ^^^ c₄) ^^^ Sponge.at A x y := by
      ac_rfl
    _ = Sponge.at A x y := by simp only [BitVec.xor_self, BitVec.zero_xor]

/-- A map is injective if its square is, so injectivity goes back along the doublings. -/
theorem thetaBy_injective_of_doublings (m n k : Nat) (hn : 2 ^ k * n ≤ 64)
    (h : Injective (thetaBy (2 ^ k * m) (2 ^ k * n))) : Injective (thetaBy m n) := by
  induction k with
  | zero => simpa using h
  | succ k ih =>
    rw [pow_succ', mul_assoc] at hn
    refine ih (by omega) (Injective.of_comp (f := thetaBy (2 ^ k * m) (2 ^ k * n)) ?_)
    have doubled : thetaBy (2 ^ k * m) (2 ^ k * n) ∘ thetaBy (2 ^ k * m) (2 ^ k * n) =
        thetaBy (2 ^ (k + 1) * m) (2 ^ (k + 1) * n) := by
      rw [pow_succ', mul_assoc, mul_assoc]
      exact funext (thetaBy_thetaBy _ hn)
    rwa [doubled]

theorem theta_injective : Injective theta := by
  rw [theta_eq_thetaBy]
  apply thetaBy_injective_of_doublings 1 1 6 (by decide)
  change Injective (thetaBy 64 64)
  rw [thetaBy_whole_turn]
  exact LeftInverse.injective (g := thetaBy 4 0 ∘ thetaBy 4 0) thetaBy_four_thrice

/-! ### The other steps -/

theorem rotationOffset_lt (x y : Nat) : rotationOffset x y < 64 := by
  have in_table : ∀ i < 25, rotationOffsets.getD i 0 < 64 := by decide
  exact in_table _ (by omega)

theorem rho_injective : Injective rho := fun A B h => Sponge.ext_at fun x _ y _ => by
  have same_rotated := congrArg (Sponge.at · x y) h
  simp only [rho_at] at same_rotated
  exact rotl64_injective (rotationOffset_lt x y).le same_rotated

theorem pi_injective : Injective pi := fun A B h => Sponge.ext_at fun x _ y _ => by
  rw [← pi_at_source A, ← pi_at_source B, h]

/-- Five bits in a row are known from their images under χ. -/
theorem chi_row_inverse (a b c d e : Lane) :
    a = (a ^^^ (~~~b &&& c)) ^^^ (~~~(b ^^^ (~~~c &&& d)) &&&
      ((c ^^^ (~~~d &&& e)) ^^^ (~~~(d ^^^ (~~~e &&& a)) &&& (e ^^^ (~~~a &&& b))))) := by
  have bits : ∀ a b c d e : Bool,
      a = ((a ^^ (!b && c)) ^^ (!(b ^^ (!c && d)) &&
        ((c ^^ (!d && e)) ^^ (!(d ^^ (!e && a)) && (e ^^ (!a && b)))))) := by decide
  apply BitVec.eq_of_getLsbD_eq
  intro i hi
  simpa [hi] using bits (a.getLsbD i) (b.getLsbD i) (c.getLsbD i) (d.getLsbD i) (e.getLsbD i)

theorem at_eq_of_chi (A : Sponge) (x y : Nat) :
    Sponge.at A x y = Sponge.at (chi A) x y ^^^ (~~~(Sponge.at (chi A) (x + 1) y) &&&
      (Sponge.at (chi A) (x + 2) y ^^^
        (~~~(Sponge.at (chi A) (x + 3) y) &&& Sponge.at (chi A) (x + 4) y))) := by
  simp only [chi_at, add_assoc, Nat.reduceAdd, Sponge.at_add_five]
  exact chi_row_inverse _ _ _ _ _

theorem chi_injective : Injective chi := fun A B h => Sponge.ext_at fun x _ y _ => by
  rw [at_eq_of_chi A, at_eq_of_chi B, h]

/-- ι XORs the same constant in twice. -/
theorem iota_involutive (ir : Nat) : Involutive fun A => iota A ir := fun A =>
  Sponge.ext_at fun x hx y hy => by
    rw [iota_at _ _ hx hy, iota_at _ _ hx hy]
    split
    case isTrue origin =>
      obtain ⟨rfl, rfl⟩ := origin
      rw [iota_at _ _ hx hx, if_pos ⟨rfl, rfl⟩, BitVec.xor_assoc, BitVec.xor_self, BitVec.xor_zero]
    case isFalse => rfl

/-! ### Rounds -/

/-- A fold of bijections is a bijection. -/
theorem foldl_bijective {α β : Type} {f : α → β → α} (h : ∀ b, Bijective fun a => f a b)
    (bs : List β) : Bijective fun a => bs.foldl f a := by
  induction bs with
  | nil => exact bijective_id
  | cons b bs ih => exact ih.comp (h b)

theorem rnd_injective (ir : Nat) : Injective fun A => rnd A ir :=
  (iota_involutive ir).injective.comp
    (chi_injective.comp (pi_injective.comp (rho_injective.comp theta_injective)))

theorem keccakF_bijective : Bijective keccakF :=
  foldl_bijective (fun ir => Sponge.bijective_of_injective (rnd_injective ir)) (List.range 24)

/-- Settles O42: θ is injective as 192 applications give the identity, the other steps by their
inverses, and an injective map of the finitely many states is bijective. -/
theorem keccakFIsABijection : Obligations.KeccakFIsABijection :=
  ⟨Sponge.bijective_of_injective theta_injective, Sponge.bijective_of_injective rho_injective,
    Sponge.bijective_of_injective pi_injective, Sponge.bijective_of_injective chi_injective,
    fun ir => (iota_involutive ir).bijective, keccakF_bijective⟩

end Sys2Proof.Machine
end

section
/-! The byte view of a sponge state: reading after writing a byte (R23), and states with the same
bytes. -/

namespace Sys2Proof.Machine

/-- Bit `i` of a lane with byte `k` replaced (R23). -/
theorem getLsbD_setLaneByte (w : Lane) (v : Byte) (k : Nat) {i : Nat} (hi : i < 64) :
    (setLaneByte w k v).getLsbD i =
      if i / 8 = k then v.getLsbD (i % 8) else w.getLsbD i := by
  have mask : (0xFF : Lane) = (BitVec.allOnes 8).setWidth 64 := by decide
  simp only [setLaneByte, mask, BitVec.getLsbD_or, BitVec.getLsbD_and, BitVec.getLsbD_not,
    BitVec.getLsbD_shiftLeft, BitVec.getLsbD_setWidth, BitVec.getLsbD_allOnes]
  by_cases hk : i / 8 = k
  · have offset : i - 8 * k = i % 8 := by omega
    simp [hk, offset, hi, show i % 8 < 64 by omega, show ¬i < 8 * k by omega, Nat.mod_lt]
  · by_cases below : i < 8 * k
    · simp [hk, below, hi]
    · have above : v.getLsbD (i - 8 * k) = false := BitVec.getLsbD_of_ge _ _ (by omega)
      simp [hk, below, hi, above, show ¬i - 8 * k < 8 by omega]

/-- Byte `m` of a lane with byte `k` replaced (R23). -/
theorem setLaneByte_extractLsb' (w : Lane) (v : Byte) (k : Nat) {m : Nat} (hm : m < 8) :
    (setLaneByte w k v).extractLsb' (8 * m) 8 =
      if m = k then v else w.extractLsb' (8 * m) 8 := by
  apply BitVec.eq_of_getLsbD_eq
  intro i hi
  have hdiv : (8 * m + i) / 8 = m := by omega
  have hmod : (8 * m + i) % 8 = i := by omega
  rw [BitVec.getLsbD_extractLsb', getLsbD_setLaneByte w v k (by omega), hdiv, hmod]
  split <;> simp [hi]

/-- Reading a byte after writing one (R23). -/
theorem memRead_memWrite (A : Sponge) (v : Byte) {j : Nat} (hj : j < 200) (k : Nat) :
    memRead (memWrite A j v) k = if k = j then v else memRead A k := by
  rw [memRead, Sponge.lane_memWrite A j v hj, memRead]
  by_cases hlane : k / 8 = j / 8
  · have same_byte : k % 8 = j % 8 ↔ k = j := by omega
    rw [if_pos hlane, setLaneByte_extractLsb' _ v _ (by omega)]
    simp only [same_byte]
  · rw [if_neg hlane, if_neg fun h => hlane (congrArg (· / 8) h)]

/-- Two words with the same eight bytes are equal (R23, R71). -/
theorem lane_ext_bytes {a b : Lane}
    (h : ∀ k < 8, a.extractLsb' (8 * k) 8 = b.extractLsb' (8 * k) 8) : a = b := by
  have same_bytes : bytesOfU64 a = bytesOfU64 b :=
    List.map_congr_left fun k hk => h k (List.mem_range.mp hk)
  rw [← u64OfBytes_bytesOfU64 a, same_bytes, u64OfBytes_bytesOfU64]

/-- A byte of a lane, in the byte view of the state (R23). -/
theorem lane_extractLsb' (A : Sponge) (i : Nat) {k : Nat} (hk : k < 8) :
    (Sponge.lane A i).extractLsb' (8 * k) 8 = memRead A (8 * i + k) := by
  rw [memRead, show (8 * i + k) / 8 = i by omega, show (8 * i + k) % 8 = k by omega]

/-- Two states with the same 200 bytes are equal (R23). -/
theorem Sponge.ext_memRead {A B : Sponge} (h : ∀ k < 200, memRead A k = memRead B k) : A = B :=
  Sponge.ext_lane fun i hi => lane_ext_bytes fun k hk => by
    rw [lane_extractLsb' A i hk, lane_extractLsb' B i hk, h _ (by omega)]

end Sys2Proof.Machine
end

section
/-! XORing bytes into a sponge state, as AbsorbBlock and the streaming absorber do (R140, R142). -/

namespace Sys2Proof.Machine

/-- `MemWrite(j, 1, MemRead(j, 1) ^ b)` (R140, R142). -/
def xorByte (A : Sponge) (j : Nat) (b : Byte) : Sponge := memWrite A j (memRead A j ^^^ b)

/-- The first `n` bytes of `P` XORed into bytes `0 .. n - 1` of the state. -/
def xorFirst (n : Nat) (A : Sponge) (P : List Byte) : Sponge :=
  (List.range n).foldl (fun A j => xorByte A j (P.getD j 0)) A

theorem xorRate_eq_xorFirst (A : Sponge) (P : List Byte) : xorRate A P = xorFirst 136 A P := rfl

theorem Stream.ofSession_eq (r : Session) :
    Stream.ofSession r = { A := xorFirst r.buf.length r.A r.buf, n := r.buf.length } := rfl

theorem Stream.byte_eq (st : Stream) (b : Byte) :
    Stream.byte st b =
      if st.n + 1 = 136 then { A := keccakF (xorByte st.A st.n b), n := 0 }
      else { A := xorByte st.A st.n b, n := st.n + 1 } := rfl

theorem Stream.digest_eq (st : Stream) :
    Stream.digest st = squeeze (keccakF (xorByte (xorByte st.A st.n padFirst) 135 padLast)) := rfl

theorem memRead_xorByte (A : Sponge) (b : Byte) {j : Nat} (hj : j < 200) (k : Nat) :
    memRead (xorByte A j b) k = memRead A k ^^^ if k = j then b else 0 := by
  rw [xorByte, memRead_memWrite A _ hj]
  by_cases h : k = j <;> simp [h]

@[simp] theorem xorFirst_zero (A : Sponge) (P : List Byte) : xorFirst 0 A P = A := rfl

theorem xorFirst_succ (n : Nat) (A : Sponge) (P : List Byte) :
    xorFirst (n + 1) A P = xorByte (xorFirst n A P) n (P.getD n 0) := by
  rw [xorFirst, List.range_succ, List.foldl_concat, xorFirst]

theorem memRead_xorFirst {n : Nat} (hn : n ≤ 200) (A : Sponge) (P : List Byte) (k : Nat) :
    memRead (xorFirst n A P) k = memRead A k ^^^ if k < n then P.getD k 0 else 0 := by
  induction n with
  | zero => simp
  | succ n ih =>
    rw [xorFirst_succ, memRead_xorByte _ _ (by omega), ih (by omega)]
    obtain h | rfl | h := Nat.lt_trichotomy k n
    · simp [h, Nat.ne_of_lt h, Nat.lt_succ_of_lt h]
    · simp
    · simp [Nat.ne_of_gt h, Nat.not_lt_of_gt h, show ¬k < n + 1 by omega]

/-- The XOR of all of `P`: past its end nothing changes. -/
theorem memRead_xorFirst_all {n : Nat} {P : List Byte} (hP : P.length ≤ n) (hn : n ≤ 200)
    (A : Sponge) (k : Nat) : memRead (xorFirst n A P) k = memRead A k ^^^ P.getD k 0 := by
  rw [memRead_xorFirst hn]
  split
  · rfl
  · rw [List.getD_eq_default P _ (by omega)]

/-- A lane after the XOR of as many bytes as `n` lanes have is the XOR with a lane (R140). -/
theorem lane_xorFirst {n : Nat} (hn : n ≤ 25) (A : Sponge) (P : List Byte) (i : Nat) :
    Sponge.lane (xorFirst (8 * n) A P) i =
      if i < n then Sponge.lane A i ^^^ u64OfBytes ((P.drop (8 * i)).take 8)
      else Sponge.lane A i := by
  apply lane_ext_bytes
  intro k hk
  have in_rate : 8 * i + k < 8 * n ↔ i < n := by omega
  have byte_of_block : ((P.drop (8 * i)).take 8).getD k 0 = P.getD (8 * i + k) 0 := by
    simp [List.getD, hk]
  rw [lane_extractLsb' _ i hk, memRead_xorFirst (by omega)]
  simp only [in_rate]
  split
  · rw [BitVec.extractLsb'_xor, lane_extractLsb' A i hk, u64OfBytes_extractLsb' _ k hk,
      byte_of_block]
  · rw [lane_extractLsb' A i hk]
    exact BitVec.xor_zero

/-- Settles O43: the block goes into the state by the rule for each byte, and a lane is its eight
bytes. -/
theorem absorbBlockXorsTheRateAndPermutes : Obligations.AbsorbBlockXorsTheRateAndPermutes := by
  intro A P _
  have lanes : ∀ i, Sponge.lane (xorFirst 136 A P) i =
      if i < 17 then Sponge.lane A i ^^^ u64OfBytes ((P.drop (8 * i)).take 8)
      else Sponge.lane A i := lane_xorFirst (n := 17) (by omega) A P
  refine ⟨xorFirst 136 A P, rfl, fun j _ => ?_, fun i _ => lanes i⟩
  rw [memRead_xorFirst (by omega)]
  split
  · rfl
  · exact BitVec.xor_zero

end Sys2Proof.Machine
end

section
/-! The absorber on a chunk cut in two (R143, R144), and the streaming absorber (R142). -/

namespace Sys2Proof.Machine

theorem blockOf_append {M : List Byte} {t : Nat} (h : 136 * (t + 1) ≤ M.length) (N : List Byte) :
    blockOf (M ++ N) t = blockOf M t := by
  rw [blockOf, List.drop_append_of_le_length (by omega), List.take_append_of_le_length, blockOf]
  rw [List.length_drop]
  omega

theorem blockOf_add (M : List Byte) (k t : Nat) :
    blockOf M (k + t) = blockOf (M.drop (136 * k)) t := by
  rw [blockOf, blockOf, List.drop_drop, Nat.mul_add]

/-- The bytes left over by `M`, in front of what follows it. -/
theorem absorbedTail_append_eq_drop (M N : List Byte) :
    absorbedTail M ++ N = (M ++ N).drop (136 * (M.length / 136)) := by
  rw [absorbedTail, List.drop_append_of_le_length (Nat.mul_div_le _ _)]

/-- The blocks of a join are those of its first part, then those of what that left over. -/
theorem length_append_div (M N : List Byte) :
    (M ++ N).length / 136 = M.length / 136 + (absorbedTail M ++ N).length / 136 := by
  simp only [List.length_append, absorbedTail_length]
  omega

theorem absorbedState_append (A : Sponge) (M N : List Byte) :
    absorbedState A (M ++ N) = absorbedState (absorbedState A M) (absorbedTail M ++ N) := by
  have first_blocks : ∀ S : Sponge, ∀ t ∈ List.range (M.length / 136),
      absorbBlock S (blockOf (M ++ N) t) = absorbBlock S (blockOf M t) := fun S t ht => by
    have := List.mem_range.mp ht
    rw [blockOf_append (by omega)]
  rw [absorbedState, length_append_div, List.range_add, List.foldl_append, List.foldl_map,
    List.foldl_ext _ _ A first_blocks]
  simp only [blockOf_add, ← absorbedTail_append_eq_drop]
  rfl

theorem absorbedTail_append (M N : List Byte) :
    absorbedTail (M ++ N) = absorbedTail (absorbedTail M ++ N) := by
  rw [absorbedTail, length_append_div, Nat.mul_add, ← List.drop_drop,
    ← absorbedTail_append_eq_drop]
  rfl

/-- Two chunks absorbed one after the other leave what their join leaves (R143, R144). -/
theorem absorbChunk_absorbChunk (r : Session) (a b : List Byte) :
    absorbChunk (absorbChunk r a) b = absorbChunk r (a ++ b) := by
  simp only [absorbChunk_eq, ← absorbedState_append, ← absorbedTail_append, List.append_assoc,
    List.length_append, BitVec.ofNat_add, BitVec.add_assoc]

/-- No block is complete below 136 pending bytes: the chunk is buffered (R141). -/
theorem absorbChunk_of_short {r : Session} {chunk : List Byte}
    (h : (r.buf ++ chunk).length < 136) :
    absorbChunk r chunk =
      { A := r.A, buf := r.buf ++ chunk, total := r.total + BitVec.ofNat 64 chunk.length } := by
  rw [absorbChunk_eq, absorbedState, absorbedTail, Nat.div_eq_of_lt h, Nat.mul_zero]
  rfl

/-- At exactly 136 pending bytes they are absorbed as one block and none stays (R141). -/
theorem absorbChunk_of_full {r : Session} {chunk : List Byte}
    (h : (r.buf ++ chunk).length = 136) :
    absorbChunk r chunk =
      { A := absorbBlock r.A (r.buf ++ chunk), buf := [],
        total := r.total + BitVec.ofNat 64 chunk.length } := by
  have block : blockOf (r.buf ++ chunk) 0 = r.buf ++ chunk := List.take_of_length_le h.le
  have tail : (r.buf ++ chunk).drop 136 = [] := List.drop_of_length_le h.le
  simp only [absorbChunk_eq, absorbedState, absorbedTail, h]
  simp [List.range_succ, block, tail]

theorem absorbChunk_buf_length (r : Session) (chunk : List Byte) :
    (absorbChunk r chunk).buf.length ≤ 135 := by
  rw [absorbChunk_eq, absorbedTail_length]
  omega

/-! ### The streaming absorber -/

theorem getD_concat (P : List Byte) (b : Byte) (k : Nat) :
    (P ++ [b]).getD k 0 = if k = P.length then b else P.getD k 0 := by
  obtain h | rfl | h := Nat.lt_trichotomy k P.length
  · rw [if_neg h.ne, List.getD_append _ _ _ _ h]
  · simp
  · rw [if_neg h.ne', List.getD_eq_default _ _ h.le, List.getD_eq_default _ _ (by simpa using h)]

/-- A byte after `P` goes into the state behind `P`. -/
theorem xorFirst_concat (A : Sponge) (P : List Byte) (b : Byte) :
    xorFirst (P.length + 1) A (P ++ [b]) = xorByte (xorFirst P.length A P) P.length b := by
  have earlier : ∀ S : Sponge, ∀ j ∈ List.range P.length,
      xorByte S j ((P ++ [b]).getD j 0) = xorByte S j (P.getD j 0) := fun S j hj => by
    rw [getD_concat, if_neg (List.mem_range.mp hj).ne]
  rw [xorFirst_succ, getD_concat, if_pos rfl, xorFirst, List.foldl_ext _ _ A earlier, xorFirst]

/-- One incoming byte does to the streaming absorber what a chunk of one byte does to the
record: it is held in the state, and the 136th is followed by a permutation (R142). -/
theorem Stream.byte_ofSession {r : Session} (h : r.buf.length ≤ 135) (b : Byte) :
    Stream.byte (Stream.ofSession r) b = Stream.ofSession (absorbChunk r [b]) := by
  simp only [Stream.ofSession_eq, Stream.byte_eq, ← xorFirst_concat]
  by_cases full : r.buf.length + 1 = 136
  · rw [if_pos full, absorbChunk_of_full (by simpa using full), full, absorbBlock,
      xorRate_eq_xorFirst, List.length_nil, xorFirst_zero]
  · rw [if_neg full, absorbChunk_of_short (by simp; omega)]
    simp

theorem Stream.chunk_ofSession {r : Session} (h : r.buf.length ≤ 135) (chunk : List Byte) :
    Stream.chunk (Stream.ofSession r) chunk = Stream.ofSession (absorbChunk r chunk) := by
  induction chunk generalizing r with
  | nil =>
    rw [absorbChunk_of_short (by simp; omega), List.append_nil]
    rfl
  | cons b bs ih =>
    calc Stream.chunk (Stream.ofSession r) (b :: bs)
        = Stream.chunk (Stream.byte (Stream.ofSession r) b) bs := rfl
      _ = Stream.chunk (Stream.ofSession (absorbChunk r [b])) bs := by rw [Stream.byte_ofSession h]
      _ = Stream.ofSession (absorbChunk (absorbChunk r [b]) bs) := ih (absorbChunk_buf_length r [b])
      _ = Stream.ofSession (absorbChunk r (b :: bs)) := by
        rw [absorbChunk_absorbChunk, List.singleton_append]

theorem getD_append_zeros (P : List Byte) (m k : Nat) :
    (P ++ List.replicate m 0).getD k 0 = P.getD k 0 := by
  by_cases h : k < P.length
  · rw [List.getD_append _ _ _ _ h]
  · rw [List.getD_append_right _ _ _ _ (by omega), List.getD_eq_default P _ (by omega),
      List.getD_eq_getElem?_getD, List.getElem?_getD_replicate_default_eq]

theorem getD_modify_xor {P : List Byte} {i : Nat} (h : i < P.length) (b : Byte) (k : Nat) :
    (P.modify i (· ^^^ b)).getD k 0 = P.getD k 0 ^^^ if k = i then b else 0 := by
  rw [List.getD_eq_getElem?_getD, List.getElem?_modify]
  obtain rfl | hne := eq_or_ne k i
  · simp [h]
  · simp [hne, hne.symm]

/-- The padded block is the buffer with the first pad byte behind it and the last one XORed
into byte 135 (R160). -/
theorem getD_pad {buf : List Byte} (h : buf.length ≤ 135) (k : Nat) :
    (pad buf).getD k 0 =
      (if k = buf.length then padFirst else buf.getD k 0) ^^^ if k = 135 then padLast else 0 := by
  rw [pad, getD_modify_xor (by simp; omega), getD_append_zeros, getD_concat]

theorem pad_length {buf : List Byte} (h : buf.length ≤ 135) : (pad buf).length = 136 := by
  simp [pad]
  omega

/-- XORing both pad bits into the state is XORing the padded block (R142, R160). -/
theorem xorRate_pad {buf : List Byte} (h : buf.length ≤ 135) (A : Sponge) :
    xorRate A (pad buf) =
      xorByte (xorByte (xorFirst buf.length A buf) buf.length padFirst) 135 padLast := by
  apply Sponge.ext_memRead
  intro k _
  rw [xorRate_eq_xorFirst, memRead_xorFirst_all (pad_length h).le (by omega), getD_pad h,
    memRead_xorByte _ _ (by omega), ← xorFirst_concat, memRead_xorFirst_all (by simp) (by omega),
    getD_concat, BitVec.xor_assoc]

theorem Stream.digest_ofSession {r : Session} (h : r.buf.length ≤ 135) :
    Stream.digest (Stream.ofSession r) = digestOf r := by
  rw [Stream.ofSession_eq, Stream.digest_eq, digestOf, absorbBlock, xorRate_pad h]

/-- Settles O17: a chunk is absorbed byte by byte, where each byte keeps the correspondence of
`Stream.ofSession`; at the end the two pad bits in the state are the padded block. -/
theorem streamingAbsorberGivesTheSameDigest : Obligations.StreamingAbsorberGivesTheSameDigest :=
  fun _ chunk h => ⟨Stream.chunk_ofSession h chunk, Stream.digest_ofSession h⟩

end Sys2Proof.Machine
end

section
/-! Every byte of the padded block (R160), and the digest of a session whose UPDATEs are mixed with
other commands (R164). -/

namespace Sys2Proof.Machine

/-! ### Padding (R160) -/

theorem getElem?_pad {buf : List Byte} (h : buf.length ≤ 135) {j : Nat} (hj : j < 136) :
    (pad buf)[j]? = some ((pad buf).getD j 0) := by
  have in_block : j < (pad buf).length := by rwa [pad_length h]
  rw [List.getElem?_eq_getElem in_block, List.getD_eq_getElem _ _ in_block]

/-- Settles O50: the block is 136 bytes long, and `getD_pad` gives a byte of the buffer, the first
pad byte, the last one, their XOR in byte 135, or 0. -/
theorem padWritesEveryByte : Obligations.PadWritesEveryByte := by
  intro buf h
  refine ⟨pad_length h, fun j hj => ?_⟩
  rw [getElem?_pad h hj, getD_pad h]
  obtain below | at_end | above := Nat.lt_trichotomy j buf.length
  · simp [below, below.ne, show j ≠ 135 by omega]
  · rw [if_pos at_end, if_neg at_end.not_lt, if_pos at_end]
    split <;> rfl
  · rw [if_neg above.ne', if_neg above.not_gt, if_neg above.ne', List.getD_eq_default _ _ above.le]
    split <;> rfl

/-! ### What a command does to the registry -/

theorem not_open_of_lookup_error {s : State} {sid : SessionId} {e : Status}
    (h : s.lookup sid = .error e) : findSession s.sessions sid = none := by
  cases hf : findSession s.sessions sid with
  | none => rfl
  | some r => simp [lookup_open hf] at h

/-- Everything a command can do to the registry (R141, R162, R181): nothing, if no session it names
is open; else what INIT, UPDATE or FINAL does to one session. -/
theorem exec_registry_cases {i : Instr} {s t : State} (h : exec i s = .next t) :
    ((∀ v, namesSession v i = true → findSession s.sessions v = none) ∧
        t.sessions = s.sessions ∧ t.issued = s.issued) ∨
      (∃ v, i = .init ∧ v ≠ 0 ∧ v ∉ s.issued ∧
        t.sessions = putSession v freshSession s.sessions ∧ t.issued = addIssued v s.issued) ∨
      (∃ v chunk r, i = .update v chunk ∧ findSession s.sessions v = some r ∧
        t.sessions = putSession v (absorbChunk r chunk) s.sessions ∧ t.issued = s.issued) ∨
      ∃ v r, i = .final v ∧ findSession s.sessions v = some r ∧
        t.sessions = dropSession v s.sessions ∧ t.issued = s.issued := by
  cases i with
  | init =>
    cases h
    rcases initResult_cases s with ⟨-, h⟩ | ⟨v, -, hv, h⟩ <;> rw [h]
    · exact .inl ⟨by simp [namesSession], rfl, rfl⟩
    · obtain ⟨nonzero, fresh⟩ := drawSid_some hv
      exact .inr (.inl ⟨v, rfl, nonzero, fresh, rfl, rfl⟩)
  | update v chunk =>
    cases h
    rcases updateResult_cases v chunk s with ⟨e, he, h⟩ | ⟨r, hr, h⟩ <;> rw [h]
    · exact .inl ⟨by simpa [namesSession] using not_open_of_lookup_error he, rfl, rfl⟩
    · exact .inr (.inr (.inl ⟨v, chunk, r, rfl, hr, rfl, rfl⟩))
  | final v =>
    cases h
    rcases finalResult_cases v s with ⟨e, he, h⟩ | ⟨r, hr, -, -, h⟩ | ⟨r, hr, -, h⟩ <;> rw [h]
    · exact .inl ⟨by simpa [namesSession] using not_open_of_lookup_error he, rfl, rfl⟩
    · exact .inr (.inr (.inr ⟨v, r, rfl, hr, rfl, rfl⟩))
    · exact .inr (.inr (.inr ⟨v, r, rfl, hr, rfl, rfl⟩))
  | permute operand =>
    cases h
    exact .inl ⟨by simp [namesSession], rfl, rfl⟩

/-- FINAL on an open session that the policy does not refuse (R162). -/
theorem exec_final_of_open {s : State} {sid : SessionId} {r : Session}
    (hr : findSession s.sessions sid = some r)
    (policy : s.cfg.allowEmptyFinal = true ∨ r.total ≠ 0) :
    exec (.final sid) s = .next ((s.retire sid).respond .ok 0x03 (digestOf r)) := by
  have kept : ¬(s.cfg.allowEmptyFinal = false ∧ r.total = 0) := by
    rintro ⟨strict, empty⟩
    simp [strict, empty] at policy
  simp only [exec_final, finalResult, lookup_open hr, if_neg kept]

/-! ### One session among other commands (R164) -/

/-- Session `sid` is open with record `r`, under an issued id and in a canonical registry. -/
structure State.OpenWith (s : State) (sid : SessionId) (r : Session) : Prop where
  sessions_wf : RegistryWf s.sessions
  issued : sid ∈ s.issued
  found : findSession s.sessions sid = some r

theorem State.Inv.openWith {s : State} (h : s.Inv) {sid : SessionId} {r : Session}
    (hr : findSession s.sessions sid = some r) : s.OpenWith sid r :=
  ⟨h.sessions_wf, h.open_issued sid r hr, hr⟩

theorem absorbChunk_nil {r : Session} (h : r.buf.length ≤ 135) : absorbChunk r [] = r := by
  rw [absorbChunk_of_short (by simp; omega)]
  simp

theorem bytesFor_cons (sid : SessionId) (i : Instr) (is : List Instr) :
    bytesFor sid (i :: is) = bytesFor sid [i] ++ bytesFor sid is := by
  cases i with
  | init => rfl
  | update v chunk => by_cases h : v = sid <;> simp [bytesFor, h]
  | final v => rfl
  | permute operand => rfl

theorem bytesFor_singleton_of_not_named {sid : SessionId} {i : Instr}
    (h : namesSession sid i = false) : bytesFor sid [i] = [] := by
  cases i with
  | init => rfl
  | update v chunk =>
    have other : v ≠ sid := by simpa [namesSession] using h
    simp [bytesFor, other]
  | final v => rfl
  | permute operand => rfl

/-- A command absorbs into an open session the bytes it carries for it, and does nothing else to
it, unless it is the FINAL of that session (R62, R63). -/
theorem State.OpenWith.after_exec {s t : State} {sid : SessionId} {r : Session}
    (hs : s.OpenWith sid r) (short : r.buf.length ≤ 135) {i : Instr} (hi : i ≠ .final sid)
    (h : exec i s = .next t) : t.OpenWith sid (absorbChunk r (bytesFor sid [i])) := by
  obtain ⟨wf, issued, found⟩ := hs
  rcases exec_registry_cases h with ⟨closed, hsess, hiss⟩ | ⟨v, rfl, -, fresh, hsess, hiss⟩ |
    ⟨v, chunk, q, rfl, hq, hsess, hiss⟩ | ⟨v, q, rfl, -, hsess, hiss⟩
  · have not_named : namesSession sid i = false := by
      by_contra named
      simp [closed sid (by simpa using named)] at found
    rw [bytesFor_singleton_of_not_named not_named, absorbChunk_nil short]
    exact ⟨hsess ▸ wf, hiss ▸ issued, hsess ▸ found⟩
  · have other : sid ≠ v := fun e => fresh (e ▸ issued)
    refine ⟨hsess ▸ putSession_wf wf v _, by simp [hiss, issued], ?_⟩
    rw [hsess, findSession_put_other other, found]
    simp [bytesFor, absorbChunk_nil short]
  · refine ⟨hsess ▸ putSession_wf wf v _, hiss ▸ issued, ?_⟩
    rw [hsess]
    by_cases own : v = sid
    · subst own
      obtain rfl : q = r := Option.some.inj (hq.symm.trans found)
      simp [bytesFor]
    · rw [findSession_put_other (Ne.symm own), found]
      simp [bytesFor, own, absorbChunk_nil short]
  · have other : sid ≠ v := fun e => hi (e ▸ rfl)
    refine ⟨hsess ▸ dropSession_wf wf v, hiss ▸ issued, ?_⟩
    rw [hsess, findSession_drop_other other, found]
    simp [bytesFor, absorbChunk_nil short]

/-- Commands without the FINAL of an open session absorb into it the bytes of its UPDATEs, in
order. -/
theorem State.OpenWith.after_execAll {sid : SessionId} {cmds : List Instr}
    (hc : ∀ i ∈ cmds, i ≠ .final sid) {s : State} {r : Session} (hs : s.OpenWith sid r)
    (short : r.buf.length ≤ 135) :
    ∃ t, execAll cmds s = .next t ∧ t.cfg = s.cfg ∧
      t.OpenWith sid (absorbChunk r (bytesFor sid cmds)) := by
  induction cmds generalizing s r with
  | nil => exact ⟨s, rfl, rfl, by rwa [bytesFor, absorbChunk_nil short]⟩
  | cons i is ih =>
    obtain ⟨hi, his⟩ := List.forall_mem_cons.mp hc
    obtain ⟨u, hu⟩ := exec_next i s
    obtain ⟨ucfg, -⟩ := exec_answers hu
    obtain ⟨t, ht, tcfg, topen⟩ :=
      ih his (hs.after_exec short hi hu) (absorbChunk_buf_length r _)
    refine ⟨t, by rw [execAll, hu]; exact ht, tcfg.trans ucfg, ?_⟩
    rwa [bytesFor_cons, ← absorbChunk_absorbChunk]

/-- The digest of a session that absorbed `M` from its opening on is Keccak-256 of `M` (R164). -/
theorem digestOf_absorbChunk_freshSession (M : List Byte) :
    digestOf (absorbChunk freshSession M) = keccak256 M := by
  rw [absorbChunk_eq]
  rfl

theorem absorbChunk_freshSession_total (M : List Byte) :
    (absorbChunk freshSession M).total = BitVec.ofNat 64 M.length :=
  BitVec.zero_add _

/-- Settles O16: through the commands the session stays open and absorbs its own bytes; FINAL then
pads what is left of them. -/
theorem digestIsKeccak256OfTheConcatenation :
    Obligations.DigestIsKeccak256OfTheConcatenation := by
  intro s sid cmds inv opened hc policy
  obtain ⟨t, ht, cfg, wf, issued, found⟩ := (inv.openWith opened).after_execAll hc (Nat.zero_le _)
  rw [← cfg, ← absorbChunk_freshSession_total] at policy
  refine ⟨t, _, ht, exec_final_of_open found policy, ?_, ?_, ?_⟩
  · simp [digestOf_absorbChunk_freshSession, responseBytes_eq, Status.code]
  · exact findSession_drop_self wf sid
  · exact issued

end Sys2Proof.Machine
end

section
/-! A step uses up the turn it takes, and what a step that answers an error has done (R207). -/

namespace Sys2Proof.Machine

/-! ### The turns -/

/-- The engine's turn on a frame leaves the coming turns as they are. -/
theorem serve_turns {s t : State} {k : Nat} (h : s.serve k = .next t) : t.turns = s.turns := by
  rcases serve_cases s k with
    ⟨hr, -⟩ | ⟨f, -, -, ⟨-, hr⟩ | ⟨i, -, ⟨-, hr⟩ | ⟨-, hr⟩⟩⟩ <;> rw [hr] at h
  · cases h
    rfl
  · cases h
    rfl
  · cases h
  · obtain ⟨-, -, turns, -⟩ := exec_answers h
    exact turns

theorem serveAny_turns {s t : State} (h : s.serveAny = .next t) : t.turns = s.turns := by
  rcases serveAny_cases s with ⟨-, hr⟩ | ⟨k, n, -, -, -, hr⟩ <;> rw [hr] at h
  · cases h
    rfl
  · exact serve_turns (s := { s with freeCount := n }) h

theorem takeTurn_turns {s t : State} {turn : Turn} (h : s.takeTurn turn = .next t) :
    t.turns = s.turns := by
  cases turn with
  | serve k => exact serve_turns h
  | send host obtained bytes =>
    cases h
    rfl
  | more k bytes =>
    cases h
    obtain ⟨port, hp⟩ := State.landMore_eq s k bytes
    rw [hp]
  | reset =>
    cases h
    rfl

/-- A step uses up the turn it takes, and no other. -/
theorem step_turns {s t : State} (h : step s = .next t) : t.turns = s.turns.tail := by
  obtain ⟨apart, -⟩ := step_next_cases h
  rw [step, apart] at h
  cases hs : s.turns with
  | nil =>
    rw [hs] at h
    rw [serveAny_turns h, hs]
    rfl
  | cons turn ts =>
    rw [hs] at h
    exact takeTurn_turns h

/-! ### Errors (R207) -/

@[simp] theorem State.landMore_responses (s : State) (k : Nat) (bytes : List Byte) :
    (s.landMore k bytes).responses = s.responses := by
  obtain ⟨port, hp⟩ := State.landMore_eq s k bytes
  rw [hp]

@[simp] theorem responseBytes_head? (status : Status) (ropc : Byte) (payload : List Byte) :
    (responseBytes status ropc payload).head? = some status.code := by
  rw [responseBytes_eq]
  rfl

theorem Status.code_eq_three_iff (e : Status) : e.code = 0x03 ↔ e = .emptySession := by
  cases e <;> decide

theorem lookup_error_ne_emptySession {s : State} {sid : SessionId} {e : Status}
    (h : s.lookup sid = .error e) : e ≠ .emptySession := by
  rw [lookup_closed (not_open_of_lookup_error h)] at h
  cases h
  split <;> decide

/-- The status of every command's response (R78): OK; an error, if no session the command names is
open; or the EmptySessionError of a FINAL, which retires its session (R163). -/
theorem exec_status_cases {i : Instr} {s t : State} (h : exec i s = .next t) :
    (∃ host op payload, t.responses =
        s.responses ++ [{ host := host, bytes := responseBytes .ok op payload }]) ∨
      (∃ e op, e ≠ .emptySession ∧
        (∀ v, namesSession v i = true → findSession s.sessions v = none) ∧ t = s.raise e op) ∨
      ∃ v q, i = .final v ∧ findSession s.sessions v = some q ∧ s.cfg.allowEmptyFinal = false ∧
        q.total = 0 ∧ t = (s.retire v).raise .emptySession 0x03 := by
  cases i with
  | init =>
    cases h
    rcases initResult_cases s with ⟨-, h⟩ | ⟨v, -, -, h⟩ <;> rw [h]
    · exact .inr (.inl ⟨.sessionLimit, 0x01, by decide, by simp [namesSession], rfl⟩)
    · exact .inl ⟨s.sender, _, _, rfl⟩
  | update v chunk =>
    cases h
    rcases updateResult_cases v chunk s with ⟨e, he, h⟩ | ⟨r, -, h⟩ <;> rw [h]
    · exact .inr (.inl ⟨e, 0x02, lookup_error_ne_emptySession he,
        by simpa [namesSession] using not_open_of_lookup_error he, rfl⟩)
    · exact .inl ⟨s.sender, _, _, rfl⟩
  | final v =>
    cases h
    rcases finalResult_cases v s with ⟨e, he, h⟩ | ⟨q, hq, strict, empty, h⟩ | ⟨q, -, -, h⟩ <;>
      rw [h]
    · exact .inr (.inl ⟨e, 0x03, lookup_error_ne_emptySession he,
        by simpa [namesSession] using not_open_of_lookup_error he, rfl⟩)
    · exact .inr (.inr ⟨v, q, rfl, hq, strict, empty, rfl⟩)
    · exact .inl ⟨s.sender, _, _, rfl⟩
  | permute operand =>
    cases h
    exact .inl ⟨s.sender, _, _, rfl⟩

/-- Everything a step that emits an error response has done: it took a frame in flight and raised
an error, where EmptySessionError is that of a FINAL the policy refuses (R163), and any other error
means that the frame is no FINAL of an open session. -/
theorem step_error_cases {s t : State} {r : Response} (h : step s = .next t)
    (hr : t.responses = s.responses ++ [r]) (herr : r.bytes.head? ≠ some 0x00) :
    ∃ n k f, s.port[k]? = some f ∧
      ((∃ e op, e ≠ .emptySession ∧
          (∀ v, decode f.bytes = .ok (.final v) → findSession s.sessions v = none) ∧
          t = (State.takeFrame { s with turns := s.turns.tail, freeCount := n } k f).raise e op) ∨
        ∃ v q, decode f.bytes = .ok (.final v) ∧ findSession s.sessions v = some q ∧
          s.cfg.allowEmptyFinal = false ∧ q.total = 0 ∧
          t = ((State.takeFrame { s with turns := s.turns.tail, freeCount := n } k f).retire
            v).raise .emptySession 0x03) := by
  have turns := step_turns h
  obtain ⟨-, ⟨host, obtained, bytes, ts, -, rfl⟩ | ⟨k, bytes, ts, -, rfl⟩ | ⟨ts, -, rfl⟩ |
    ⟨ts, ht⟩ | ⟨ts, n, k, f, hf, -, illegal, rfl⟩ | ⟨ts, n, k, f, i, hf, -, hi, -, hexec⟩⟩ :=
    step_next_cases h
  · simp at hr
  · simp at hr
  · simp at hr
  · rw [ht] at hr
    simp at hr
  · obtain rfl : ts = s.turns.tail := turns
    exact ⟨n, k, f, hf, .inl ⟨.illegalCommand, _, by decide,
      fun v hv => absurd hv (illegal (.final v)), rfl⟩⟩
  · obtain ⟨-, -, kept, -⟩ := exec_answers hexec
    obtain rfl : ts = s.turns.tail := kept.symm.trans turns
    refine ⟨n, k, f, hf, ?_⟩
    rcases exec_status_cases hexec with ⟨host, op, payload, hok⟩ | ⟨e, op, he, closed, ht⟩ |
      ⟨v, q, rfl, hq, strict, empty, ht⟩
    · obtain rfl : r = { host := host, bytes := responseBytes .ok op payload } := by
        simpa using hr.symm.trans hok
      exact absurd (responseBytes_head? .ok op payload) herr
    · refine .inl ⟨e, op, he, fun v hv => closed v ?_, ht⟩
      obtain rfl : i = .final v := by simpa using hi.symm.trans hv
      simp [namesSession]
    · exact .inr ⟨v, q, hi, hq, strict, empty, ht⟩

/-- Settles O23: the state after an error response is the one before it with the error raised on
the frame taken, after the session of a refused FINAL is retired. -/
theorem errorsChangeNoSession : Obligations.ErrorsChangeNoSession := by
  intro s t r h hr herr
  obtain ⟨n, k, f, hf, ⟨e, op, he, closed, rfl⟩ | ⟨v, q, hv, hq, strict, empty, rfl⟩⟩ :=
    step_error_cases h hr herr
  · obtain rfl : r = { host := f.host, bytes := responseBytes e op [] } := by
      simpa [State.raise_eq_respond] using hr.symm
    have status : (responseBytes e op []).head? ≠ some 0x03 := by
      rwa [responseBytes_head?, Ne, Option.some.injEq, Status.code_eq_three_iff]
    refine ⟨by simp [responseBytes_eq], k, f, hf, rfl, rfl, ⟨fun h3 => absurd h3 status, ?_⟩,
      fun h3 => absurd h3 status, fun _ => rfl⟩
    rintro ⟨sid, q, hsid, hq, -⟩
    simp [closed sid hsid] at hq
  · obtain rfl : r = { host := f.host, bytes := responseBytes .emptySession 0x03 [] } := by
      simpa [State.raise_eq_respond] using hr.symm
    have status : (responseBytes .emptySession 0x03 []).head? = some 0x03 :=
      responseBytes_head? _ _ _
    have named : sessionNamed f.bytes = some v :=
      (sessionNamed_of_decode hv v).mpr (by simp [namesSession])
    exact ⟨by simp [responseBytes_eq], k, f, hf, rfl, rfl,
      ⟨fun _ => ⟨v, q, hv, hq, strict, empty⟩, fun _ => status⟩,
      fun _ => ⟨v, named, rfl⟩, fun h3 => absurd status h3⟩

end Sys2Proof.Machine
end

section
/-! The step on a listed turn, and on the reset input (R230). -/

namespace Sys2Proof.Machine

/-- With no overlap, the step is the turn that stands first in the list. -/
theorem step_of_turn {s : State} {turn : Turn} {ts : List Turn} (apart : s.overlapping = false)
    (listed : s.turns = turn :: ts) : step s = State.takeTurn { s with turns := ts } turn := by
  simp [step, apart, listed]

/-- With no overlap, the reset input is the reset event (R230). -/
theorem step_of_reset {s : State} {ts : List Turn} (apart : s.overlapping = false)
    (listed : s.turns = .reset :: ts) :
    step s = .next (State.hardReset { s with turns := ts }) :=
  step_of_turn apart listed

/-- Settles O2: the step is the reset event, which empties the registry and keeps the responses. -/
theorem resetInputEmptiesTheRegistry : Obligations.ResetInputEmptiesTheRegistry := by
  intro s ts apart listed
  exact ⟨State.hardReset { s with turns := ts }, step_of_reset apart listed,
    State.hardReset_sessions _, State.hardReset_issued _, State.hardReset_responses _⟩

end Sys2Proof.Machine
end

section
/-! The encoder and the decoder undo each other (R71 to R76), and which headers are commands (R73,
R74, R79). -/

namespace Sys2Proof

theorem headerOf_append {bytes : List Byte} {h : Header} (hh : headerOf bytes = some h)
    (rest : List Byte) : headerOf (bytes ++ rest) = some h := by
  have header := headerOf_take (bytes := bytes ++ rest) (headerOf_some_length hh) (by simp)
  rwa [List.take_left, hh, eq_comm] at header

theorem isWhole_of_decode {bytes : List Byte} {i : Instr} (h : decode bytes = .ok i) :
    isWhole bytes = true := by
  by_contra hn
  rw [(decode_incomplete_iff bytes).mpr (by simpa using hn)] at h
  cases h

theorem isWhole_of_frameLength {bytes : List Byte} (h : frameLength bytes = some bytes.length) :
    isWhole bytes = true := by
  simp [isWhole, h]

/-- Bytes after a whole frame do not change what it decodes to (R76). -/
theorem decode_append {bytes : List Byte} (whole : isWhole bytes = true) (rest : List Byte) :
    decode (bytes ++ rest) = decode bytes := by
  obtain ⟨hd, hh, length, hdec⟩ := decode_whole whole
  have payload : ((bytes ++ rest).drop 24).take hd.w2.toNat =
      (bytes.drop 24).take hd.w2.toNat := by
    rw [List.drop_append_of_le_length (by omega), List.take_append_of_le_length]
    rw [List.length_drop]
    omega
  simp only [decode, headerOf_append hh, payload]
  rw [if_neg (by rw [List.length_append]; omega), ← hdec, decode]

theorem frameLength_encode {i : Instr} (wf : i.wf = true) :
    frameLength (encode i) = some (encode i).length := by
  cases i with
  | init => exact Laws.FrameLength.init wf
  | update sid chunk => exact Laws.FrameLength.update sid chunk wf
  | final sid => exact Laws.FrameLength.final sid wf
  | permute operand => exact Laws.FrameLength.permute operand wf

theorem decode_encode {i : Instr} (wf : i.wf = true) : decode (encode i) = .ok i := by
  cases i with
  | init => exact decode_frameOf rfl
  | update sid chunk =>
    have short : chunk.length < 2 ^ 64 := by simpa [Instr.wf] using wf
    exact decode_frameOf (Nat.mod_eq_of_lt short).symm
  | final sid => exact decode_frameOf rfl
  | permute operand =>
    have length : operand.length = 200 := by simpa [Instr.wf] using wf
    exact decode_frameOf (by simpa using length)

/-- Bytes with a header are the frame of its three words and of the bytes after it (R71). -/
theorem eq_frameOf_of_headerOf {bytes : List Byte} {h : Header} (hh : headerOf bytes = some h) :
    bytes = frameOf h.w0 h.w1 h.w2 (bytes.drop 24) := by
  have h24 := headerOf_some_length hh
  rw [headerOf, if_pos h24] at hh
  cases hh
  rw [frameOf_u64OfBytes (by simp; omega) (by simp; omega) (by simp; omega), List.append_assoc,
    List.append_assoc]
  conv_lhs => rw [← List.take_append_drop 8 bytes, ← List.take_append_drop 8 (bytes.drop 8),
    ← List.take_append_drop 8 ((bytes.drop 8).drop 8)]
  simp only [List.drop_drop]

/-- A header and payload that decode to a command are those of its encoding. -/
theorem encode_of_decodeHeader {hd : Header} {payload : List Byte} {i : Instr}
    (length : payload.length = hd.w2.toNat) (h : decodeHeader hd payload = .ok i) :
    i.wf = true ∧ encode i = frameOf hd.w0 hd.w1 hd.w2 payload := by
  obtain ⟨w0, w1, w2⟩ := hd
  rcases decodeHeader_ok h with ⟨rfl, rfl, rfl, rfl⟩ | ⟨rfl, rfl⟩ | ⟨rfl, rfl, rfl⟩ |
    ⟨rfl, rfl, rfl, rfl⟩
  · rw [List.eq_nil_of_length_eq_zero length]
    exact ⟨rfl, rfl⟩
  · refine ⟨by simpa [Instr.wf, length] using w2.isLt, ?_⟩
    rw [encode, length, BitVec.ofNat_toNat, BitVec.setWidth_eq]
  · rw [List.eq_nil_of_length_eq_zero length]
    exact ⟨rfl, rfl⟩
  · exact ⟨by simpa [Instr.wf] using length, rfl⟩

/-- `W0` is an opcode exactly when `OPC` is and `RSV` is zero (R72). -/
theorem w0_eq_iff (h : Header) {w : U64} {opc : Byte} (low : w.toNat = opc.toNat) :
    h.w0 = w ↔ h.rsv = 0 ∧ h.opc = opc := by
  simp only [Header.rsv, Header.opc, ← BitVec.toNat_inj, BitVec.extractLsb'_toNat,
    low, Nat.shiftRight_eq_div_pow, BitVec.ofNat_eq_ofNat, BitVec.toNat_ofNat]
  omega

/-- The headers that are commands, by the whole of `W0` (R73, R74). -/
theorem decodeHeader_isOk_iff (h : Header) (payload : List Byte) :
    (∃ i, decodeHeader h payload = .ok i) ↔
      (h.w0 = 1 ∧ h.w1 = 0 ∧ h.w2 = 0) ∨ h.w0 = 2 ∨ (h.w0 = 3 ∧ h.w2 = 0) ∨
        (h.w0 = 4 ∧ h.w1 = 0 ∧ h.w2 = 200) := by
  constructor
  · rintro ⟨i, hi⟩
    rcases decodeHeader_ok hi with ⟨h0, h1, h2, -⟩ | ⟨h0, -⟩ | ⟨h0, h2, -⟩ | ⟨h0, h1, h2, -⟩
    · exact .inl ⟨h0, h1, h2⟩
    · exact .inr (.inl h0)
    · exact .inr (.inr (.inl ⟨h0, h2⟩))
    · exact .inr (.inr (.inr ⟨h0, h1, h2⟩))
  · rintro (⟨h0, h1, h2⟩ | h0 | ⟨h0, h2⟩ | ⟨h0, h1, h2⟩)
    · exact ⟨.init, by simp [decodeHeader, h0, h1, h2]⟩
    · exact ⟨.update h.w1 payload, by simp [decodeHeader, h0]⟩
    · exact ⟨.final h.w1, by simp [decodeHeader, h0, h2]⟩
    · exact ⟨.permute payload, by simp [decodeHeader, h0, h1, h2]⟩

end Sys2Proof

namespace Sys2Proof.Machine

/-- Settles O38: an encoding is a whole frame, so the bytes after it do not count, and its three
words and its payload decode to the command. -/
theorem decodeReadsBackEveryEncodedCommand : Obligations.DecodeReadsBackEveryEncodedCommand := by
  intro i rest wf
  rw [decode_append (isWhole_of_frameLength (frameLength_encode wf)), decode_encode wf]

/-- Settles O39: the bytes are the frame of their header and payload, which is the encoding. -/
theorem decodedFrameIsTheEncoding : Obligations.DecodedFrameIsTheEncoding := by
  intro bytes i h
  obtain ⟨hd, hh, length, hdec⟩ := decode_whole (isWhole_of_decode h)
  obtain ⟨wf, encoded⟩ := encode_of_decodeHeader (by simp; omega) (hdec ▸ h)
  refine ⟨wf, (bytes.drop 24).drop hd.w2.toNat, ?_⟩
  rw [encoded, frameOf_append, List.take_append_drop]
  exact eq_frameOf_of_headerOf hh

/-- Settles O40: a whole frame decodes by its header, and `W0` is an opcode exactly when `RSV` is
zero and `OPC` is that opcode. -/
theorem decoderAcceptsExactlyTheOpcodeMap : Obligations.DecoderAcceptsExactlyTheOpcodeMap := by
  intro bytes h hh whole
  obtain ⟨hd, hhd, -, hdec⟩ := decode_whole whole
  obtain rfl : h = hd := Option.some.inj (hh.symm.trans hhd)
  have init : h.w0 = 1 ↔ h.rsv = 0 ∧ h.opc = 0x01 := w0_eq_iff h rfl
  have update : h.w0 = 2 ↔ h.rsv = 0 ∧ h.opc = 0x02 := w0_eq_iff h rfl
  have final : h.w0 = 3 ↔ h.rsv = 0 ∧ h.opc = 0x03 := w0_eq_iff h rfl
  have permute : h.w0 = 4 ↔ h.rsv = 0 ∧ h.opc = 0x04 := w0_eq_iff h rfl
  rw [hdec, decodeHeader_isOk_iff, init, update, final, permute]
  simp only [and_assoc, ← and_or_left]

end Sys2Proof.Machine
end

section
/-! The registry invariant: reset meets it, and every step keeps it (R29, R32, R38). -/

namespace Sys2Proof.Machine

/-! ### The registry operations keep the invariant -/

/-- The invariant speaks of the configuration, the registry and the frames in flight only. -/
theorem State.Inv.of_same_registry {s t : State} (h : s.Inv) (cfg : t.cfg = s.cfg)
    (sessions : t.sessions = s.sessions) (issued : t.issued = s.issued)
    (frames : ∀ f ∈ t.port, FrameWf f) : t.Inv where
  maxSessions_pos := cfg ▸ h.maxSessions_pos
  sessions_wf := sessions ▸ h.sessions_wf
  issued_wf := issued ▸ h.issued_wf
  zero_not_issued := issued ▸ h.zero_not_issued
  open_issued := sessions ▸ issued ▸ h.open_issued
  open_limit := sessions ▸ cfg ▸ h.open_limit
  buf_short := sessions ▸ h.buf_short
  frames_wf := frames

theorem State.Inv.respond {s : State} (h : s.Inv) (status : Status) (ropc : Byte)
    (payload : List Byte) : (s.respond status ropc payload).Inv :=
  h.of_same_registry rfl rfl rfl fun f hf => h.frames_wf f (List.mem_of_mem_tail hf)

theorem State.Inv.raise {s : State} (h : s.Inv) (error : Status) (ropc : Byte) :
    (s.raise error ropc).Inv :=
  h.respond error ropc []

theorem State.Inv.takeFrame {s : State} (h : s.Inv) {k : Nat} {f : Frame}
    (hf : s.port[k]? = some f) : (s.takeFrame k f).Inv := by
  refine h.of_same_registry rfl rfl rfl (List.forall_mem_cons.mpr ⟨?_, fun g hg => ?_⟩)
  · exact h.frames_wf f (List.mem_of_getElem? hf)
  · exact h.frames_wf g (List.mem_of_mem_eraseIdx hg)

theorem State.Inv.landSend {s : State} (h : s.Inv) (host obtained : Nat) (bytes : List Byte) :
    (s.landSend host obtained bytes).Inv := by
  refine h.of_same_registry rfl rfl rfl fun f hf => ?_
  rcases List.mem_append.mp hf with old | new
  · exact h.frames_wf f old
  · exact (framesFrom_wf host obtained bytes f new).1

theorem State.Inv.landMore {s : State} (h : s.Inv) (k : Nat) (bytes : List Byte) :
    (s.landMore k bytes).Inv := by
  unfold State.landMore
  split
  · exact h
  · refine h.of_same_registry rfl rfl rfl fun g hg => ?_
    simp only [List.mem_append] at hg
    obtain (before | new) | behind := hg
    · exact h.frames_wf g (List.mem_of_mem_take before)
    · exact (framesFrom_wf _ _ _ g new).1
    · exact h.frames_wf g (List.mem_of_mem_drop behind)

/-- With no id issued and no frame in flight, only the limit of R9 is left to say. -/
theorem State.Inv.of_empty {s : State} (limit : 1 ≤ s.cfg.maxSessions) (sessions : s.sessions = [])
    (issued : s.issued = []) (port : s.port = []) : s.Inv where
  maxSessions_pos := limit
  sessions_wf := sessions ▸ List.Pairwise.nil
  issued_wf := issued ▸ List.Pairwise.nil
  zero_not_issued := issued ▸ List.not_mem_nil
  open_issued := fun _ _ found => nomatch sessions ▸ found
  open_limit := sessions ▸ Nat.zero_le _
  buf_short := fun _ _ found => nomatch sessions ▸ found
  frames_wf := fun _ hf => nomatch port ▸ hf

theorem State.Inv.hardReset {s : State} (h : s.Inv) : s.hardReset.Inv :=
  .of_empty h.maxSessions_pos rfl rfl rfl

/-- A record found after writing one is that one or was there before. -/
theorem findSession_put_some {sid v : SessionId} {r q : Session}
    {l : List (SessionId × Session)} (h : findSession (putSession sid r l) v = some q) :
    (v = sid ∧ q = r) ∨ findSession l v = some q := by
  by_cases own : v = sid
  · subst own
    rw [findSession_put_self] at h
    exact .inl ⟨rfl, (Option.some.inj h).symm⟩
  · exact .inr (findSession_put_other own r l ▸ h)

/-- Dropping a session opens none. -/
theorem findSession_drop_none {sid v : SessionId} {l : List (SessionId × Session)}
    (h : findSession l v = none) : findSession (dropSession sid l) v = none := by
  rw [findSession_eq_none_iff] at h ⊢
  exact fun hm => h ((dropSession_keys_sublist sid l).subset hm)

theorem findSession_drop_some {sid v : SessionId} {q : Session}
    {l : List (SessionId × Session)} (wf : RegistryWf l)
    (h : findSession (dropSession sid l) v = some q) : findSession l v = some q := by
  by_cases own : v = sid
  · simp [own, findSession_drop_self wf] at h
  · rwa [findSession_drop_other own] at h

theorem State.Inv.closed_of_not_issued {s : State} (inv : s.Inv) {sid : SessionId}
    (fresh : sid ∉ s.issued) : findSession s.sessions sid = none := by
  by_contra opened
  obtain ⟨r, found⟩ := Option.ne_none_iff_exists'.mp opened
  exact fresh (inv.open_issued sid r found)

theorem State.Inv.openSession {s : State} (h : s.Inv) {sid : SessionId} (nonzero : sid ≠ 0)
    (fresh : sid ∉ s.issued) (below : s.sessions.length < s.cfg.maxSessions) :
    (s.openSession sid).Inv where
  maxSessions_pos := h.maxSessions_pos
  sessions_wf := putSession_wf h.sessions_wf sid freshSession
  issued_wf := addIssued_wf h.issued_wf sid
  zero_not_issued := by
    rw [State.openSession_issued, mem_addIssued]
    exact not_or.mpr ⟨nonzero.symm, h.zero_not_issued⟩
  open_issued := fun v r found => (mem_addIssued sid v s.issued).mpr <|
    (findSession_put_some found).imp (·.1) (h.open_issued v r)
  open_limit := by
    rw [State.openSession_sessions, putSession_length_new _ (h.closed_of_not_issued fresh)]
    exact below
  buf_short := fun v r found => by
    obtain ⟨-, rfl⟩ | old := findSession_put_some found
    · exact Nat.zero_le _
    · exact h.buf_short v r old
  frames_wf := h.frames_wf

theorem State.Inv.absorb {s : State} (h : s.Inv) {sid : SessionId} {r : Session}
    (found : findSession s.sessions sid = some r) (chunk : List Byte) :
    State.Inv { s with sessions := putSession sid (absorbChunk r chunk) s.sessions } where
  maxSessions_pos := h.maxSessions_pos
  sessions_wf := putSession_wf h.sessions_wf sid _
  issued_wf := h.issued_wf
  zero_not_issued := h.zero_not_issued
  open_issued := fun v q hv => by
    obtain ⟨rfl, -⟩ | old := findSession_put_some hv
    · exact h.open_issued v r found
    · exact h.open_issued v q old
  open_limit := by
    have same_ids := congrArg List.length
      (putSession_keys_old h.sessions_wf (absorbChunk r chunk) found)
    rw [List.length_map, List.length_map] at same_ids
    exact same_ids ▸ h.open_limit
  buf_short := fun v q hv => by
    obtain ⟨-, rfl⟩ | old := findSession_put_some hv
    · exact absorbChunk_buf_length r chunk
    · exact h.buf_short v q old
  frames_wf := h.frames_wf

theorem State.Inv.retire {s : State} (h : s.Inv) (sid : SessionId) : (s.retire sid).Inv where
  maxSessions_pos := h.maxSessions_pos
  sessions_wf := dropSession_wf h.sessions_wf sid
  issued_wf := h.issued_wf
  zero_not_issued := h.zero_not_issued
  open_issued := fun v q hv => h.open_issued v q (findSession_drop_some h.sessions_wf hv)
  open_limit := (dropSession_length_le sid s.sessions).trans h.open_limit
  buf_short := fun v q hv => h.buf_short v q (findSession_drop_some h.sessions_wf hv)
  frames_wf := h.frames_wf

/-! ### Commands and steps keep the invariant -/

theorem State.Inv.after_exec {s t : State} (h : s.Inv) {i : Instr} (hx : exec i s = .next t) :
    t.Inv := by
  cases i with
  | init =>
    cases hx
    rcases initResult_cases s with ⟨-, ht⟩ | ⟨sid, below, drawn, ht⟩ <;> rw [ht]
    · exact h.raise _ _
    · obtain ⟨nonzero, fresh⟩ := drawSid_some drawn
      exact (h.openSession nonzero fresh below).respond _ _ _
  | update sid chunk =>
    cases hx
    rcases updateResult_cases sid chunk s with ⟨e, -, ht⟩ | ⟨r, found, ht⟩ <;> rw [ht]
    · exact h.raise _ _
    · exact (h.absorb found chunk).respond _ _ _
  | final sid =>
    cases hx
    rcases finalResult_cases sid s with ⟨e, -, ht⟩ | ⟨r, -, -, -, ht⟩ | ⟨r, -, -, ht⟩ <;> rw [ht]
    · exact h.raise _ _
    · exact (h.retire sid).raise _ _
    · exact (h.retire sid).respond _ _ _
  | permute operand =>
    cases hx
    exact h.respond _ _ _

theorem State.Inv.with_turns {s : State} (h : s.Inv) (ts : List Turn) (n : Nat) :
    State.Inv { s with turns := ts, freeCount := n } :=
  h.of_same_registry rfl rfl rfl h.frames_wf

/-- Settles O5: each turn keeps the invariant, the engine's by what its command does to the
registry. -/
theorem everyStepKeepsTheRegistryInvariant : Obligations.EveryStepKeepsTheRegistryInvariant := by
  intro s t h hstep
  obtain ⟨-, ⟨host, obtained, bytes, ts, -, rfl⟩ | ⟨k, bytes, ts, -, rfl⟩ | ⟨ts, -, rfl⟩ |
    ⟨ts, ht⟩ | ⟨ts, n, k, f, hf, -, -, rfl⟩ | ⟨ts, n, k, f, i, hf, -, -, -, hexec⟩⟩ :=
    step_next_cases hstep
  · exact (h.with_turns ts s.freeCount).landSend host obtained bytes
  · exact (h.with_turns ts s.freeCount).landMore k bytes
  · exact (h.with_turns ts s.freeCount).hardReset
  · exact ht ▸ h.with_turns ts t.freeCount
  · exact ((h.with_turns ts n).takeFrame hf).raise _ _
  · exact ((h.with_turns ts n).takeFrame hf).after_exec hexec

/-- Settles O4: no session is open and no id issued, and the limit is a successor. -/
theorem resetMeetsTheRegistryInvariant : Obligations.ResetMeetsTheRegistryInvariant :=
  State.Inv.of_empty (Nat.succ_pos Config.extraSessions) rfl rfl rfl

end Sys2Proof.Machine
end

section
/-! Isolation (R36, R63): what a command leaves of the sessions it does not name, and what its
outcome depends on. -/

namespace Sys2Proof.Machine

/-! ### Sessions a command does not name -/

/-- A command leaves every session it does not name as it is (R36); an INIT, if the id was
issued. -/
theorem exec_keeps_other {i : Instr} {s t : State} {v : SessionId} (hx : exec i s = .next t)
    (other : namesSession v i = false) (no_init : i ≠ .init ∨ v ∈ s.issued) :
    findSession t.sessions v = findSession s.sessions v := by
  rcases exec_registry_cases hx with ⟨-, hsess, -⟩ | ⟨w, rfl, -, fresh, hsess, -⟩ |
    ⟨w, chunk, r, rfl, -, hsess, -⟩ | ⟨w, r, rfl, -, hsess, -⟩ <;> rw [hsess]
  · have issued : v ∈ s.issued := no_init.resolve_left fun h => h rfl
    have apart : v ≠ w := fun e => fresh (e ▸ issued)
    exact findSession_put_other apart _ _
  · have apart : w ≠ v := by simpa [namesSession] using other
    exact findSession_put_other apart.symm _ _
  · have apart : w ≠ v := by simpa [namesSession] using other
    exact findSession_drop_other apart.symm _

/-- Settles O20: only INIT opens a session it does not name, and its id was not issued. -/
theorem commandsLeaveOtherSessionsAlone : Obligations.CommandsLeaveOtherSessionsAlone :=
  fun _ _ _ _ issued other hx => exec_keeps_other hx other (.inr issued)

theorem exec_keeps_issued {i : Instr} {s t : State} {v : SessionId} (hx : exec i s = .next t)
    (issued : v ∈ s.issued) : v ∈ t.issued := by
  rcases exec_registry_cases hx with ⟨-, -, hiss⟩ | ⟨w, -, -, -, -, hiss⟩ |
    ⟨w, chunk, r, -, -, -, hiss⟩ | ⟨w, r, -, -, -, hiss⟩ <;> rw [hiss]
  · exact issued
  · exact (mem_addIssued w v s.issued).mpr (.inr issued)
  · exact issued
  · exact issued

/-- The id is not open, and no INIT can draw it: it is 0 or was issued (R181, R183). -/
def State.Unopenable (s : State) (v : SessionId) : Prop :=
  findSession s.sessions v = none ∧ (v = 0 ∨ v ∈ s.issued)

/-- No command opens an id that is 0 or was issued (R183). -/
theorem State.Unopenable.after_exec {s t : State} {v : SessionId} (h : s.Unopenable v) {i : Instr}
    (hx : exec i s = .next t) : t.Unopenable v := by
  obtain ⟨closed, barred⟩ := h
  refine ⟨?_, barred.imp_right (exec_keeps_issued hx)⟩
  rcases exec_registry_cases hx with ⟨-, hsess, -⟩ | ⟨w, -, nonzero, fresh, hsess, -⟩ |
    ⟨w, chunk, r, -, found, hsess, -⟩ | ⟨w, r, -, -, hsess, -⟩ <;> rw [hsess]
  · exact closed
  · have apart : v ≠ w := by
      rintro rfl
      exact barred.elim nonzero fresh
    rwa [findSession_put_other apart]
  · have apart : v ≠ w := by
      rintro rfl
      simp [closed] at found
    rwa [findSession_put_other apart]
  · exact findSession_drop_none closed

/-! ### What the outcome depends on -/

/-- What UPDATE and FINAL need of a state (R36): the configuration, the record of the session they
name, and whether its id was issued. -/
structure State.AgreesOn (s1 s2 : State) (sid : SessionId) : Prop where
  cfg : s1.cfg = s2.cfg
  record : findSession s1.sessions sid = findSession s2.sessions sid
  issued : sid ∈ s1.issued ↔ sid ∈ s2.issued

theorem State.AgreesOn.lookup {s1 s2 : State} {sid : SessionId} (h : s1.AgreesOn s2 sid) :
    s1.lookup sid = s2.lookup sid := by
  cases hr : findSession s2.sessions sid with
  | some r => rw [lookup_open hr, lookup_open (h.record.trans hr)]
  | none =>
    rw [lookup_closed hr, lookup_closed (h.record.trans hr), h.cfg]
    simp only [h.issued]

/-- In states that agree on the session it names, UPDATE or FINAL answers the same bytes and leaves
the same record. -/
theorem exec_of_agreesOn {i : Instr} {s1 s2 t1 t2 : State} {sid : SessionId}
    (wf1 : RegistryWf s1.sessions) (wf2 : RegistryWf s2.sessions)
    (named : namesSession sid i = true) (h : s1.AgreesOn s2 sid)
    (hx1 : exec i s1 = .next t1) (hx2 : exec i s2 = .next t2) :
    (∃ bytes, t1.responses = s1.responses ++ [{ host := s1.sender, bytes := bytes }] ∧
      t2.responses = s2.responses ++ [{ host := s2.sender, bytes := bytes }]) ∧
      findSession t1.sessions sid = findSession t2.sessions sid := by
  cases i with
  | init => simp [namesSession] at named
  | permute operand => simp [namesSession] at named
  | update v chunk =>
    obtain rfl : v = sid := by simpa [namesSession] using named
    cases hx1
    cases hx2
    rw [updateResult, updateResult, h.lookup]
    cases s2.lookup v with
    | error e => exact ⟨⟨_, rfl, rfl⟩, h.record⟩
    | ok r => exact ⟨⟨_, rfl, rfl⟩, by simp⟩
  | final v =>
    obtain rfl : v = sid := by simpa [namesSession] using named
    have dropped : findSession (dropSession v s1.sessions) v =
        findSession (dropSession v s2.sessions) v := by
      rw [findSession_drop_self wf1, findSession_drop_self wf2]
    cases hx1
    cases hx2
    rw [finalResult, finalResult, h.lookup, h.cfg]
    cases s2.lookup v with
    | error e => exact ⟨⟨_, rfl, rfl⟩, h.record⟩
    | ok r =>
      dsimp only
      split
      · exact ⟨⟨_, rfl, rfl⟩, dropped⟩
      · exact ⟨⟨_, rfl, rfl⟩, dropped⟩

/-- Only INIT issues an id. -/
theorem exec_issued_of_named {i : Instr} {s t : State} {sid : SessionId}
    (named : namesSession sid i = true) (hx : exec i s = .next t) : t.issued = s.issued := by
  rcases exec_registry_cases hx with ⟨-, -, hiss⟩ | ⟨w, rfl, -⟩ |
    ⟨w, chunk, r, -, -, -, hiss⟩ | ⟨w, r, -, -, -, hiss⟩
  · exact hiss
  · simp [namesSession] at named
  · exact hiss
  · exact hiss

/-- Settles O21: the two states agree on the session named, and the responses go to one host. -/
theorem outcomeDependsOnTheNamedSessionOnly : Obligations.OutcomeDependsOnTheNamedSessionOnly := by
  intro s1 s2 t1 t2 i sid wf1 wf2 named cfg record issued sender hx1 hx2
  obtain ⟨⟨bytes, hr1, hr2⟩, records⟩ :=
    exec_of_agreesOn wf1 wf2 named ⟨cfg, record, issued⟩ hx1 hx2
  refine ⟨by rw [hr1, hr2, sender, List.getLast?_concat, List.getLast?_concat], records, ?_⟩
  rw [exec_issued_of_named named hx1, exec_issued_of_named named hx2, issued]

/-! ### Commands on different sessions -/

theorem not_named_of_ne {i : Instr} {a b : SessionId} (named : namesSession a i = true)
    (apart : a ≠ b) : namesSession b i = false := by
  cases i with
  | init => rfl
  | update v chunk =>
    obtain rfl : v = a := by simpa [namesSession] using named
    simpa [namesSession] using apart
  | final v =>
    obtain rfl : v = a := by simpa [namesSession] using named
    simpa [namesSession] using apart
  | permute operand => rfl

theorem exec_keeps_other_of_named {i : Instr} {s t : State} {a v : SessionId}
    (named : namesSession a i = true) (apart : a ≠ v) (hx : exec i s = .next t) :
    findSession t.sessions v = findSession s.sessions v := by
  refine exec_keeps_other hx (not_named_of_ne named apart) (.inl ?_)
  rintro rfl
  simp [namesSession] at named

/-- After a command on another session the state still agrees with the one before it. -/
theorem agreesOn_after_exec {j : Instr} {s t : State} {a b : SessionId}
    (named : namesSession b j = true) (apart : b ≠ a) (hx : exec j s = .next t) :
    s.AgreesOn t a where
  cfg := (exec_answers hx).1.symm
  record := (exec_keeps_other_of_named named apart hx).symm
  issued := by rw [exec_issued_of_named named hx]

/-- A command between them that names another session changes neither what UPDATE or FINAL answers
nor the record it leaves. -/
theorem exec_after_other {s si sj u : State} {i j : Instr} {a b : SessionId} (inv : s.Inv)
    (apart : b ≠ a) (hi : namesSession a i = true) (hj : namesSession b j = true)
    (hsi : exec i s = .next si) (hsj : exec j s = .next sj) (hu : exec i sj = .next u) :
    si.responses.getLast?.map Response.bytes = u.responses.getLast?.map Response.bytes ∧
      findSession si.sessions a = findSession u.sessions a := by
  obtain ⟨⟨bytes, hr1, hr2⟩, records⟩ := exec_of_agreesOn inv.sessions_wf
    (inv.after_exec hsj).sessions_wf hi (agreesOn_after_exec hj apart hsj) hsi hu
  exact ⟨by simp [hr1, hr2], records⟩

/-- Settles O22: in either order each command finds its session as it was, and the two registries
hold the same records. -/
theorem commandsOnDifferentSessionsCommute : Obligations.CommandsOnDifferentSessionsCommute := by
  intro s i j a b inv apart hi hj
  obtain ⟨si, hsi⟩ := exec_next i s
  obtain ⟨sj, hsj⟩ := exec_next j s
  obtain ⟨t, ht⟩ := exec_next j si
  obtain ⟨u, hu⟩ := exec_next i sj
  obtain ⟨bytes_i, record_a⟩ := exec_after_other inv apart.symm hi hj hsi hsj hu
  obtain ⟨bytes_j, record_b⟩ := exec_after_other inv apart hj hi hsj hsi ht
  refine ⟨si, sj, t, u, hsi, ht, hsj, hu, ?_, ?_, bytes_i, bytes_j⟩
  · refine registry_ext ((inv.after_exec hsi).after_exec ht).sessions_wf
      ((inv.after_exec hsj).after_exec hu).sessions_wf fun v => ?_
    by_cases hav : a = v
    · subst hav
      rw [exec_keeps_other_of_named hj apart.symm ht, record_a]
    · rw [exec_keeps_other_of_named hi hav hu]
      by_cases hbv : b = v
      · rw [← hbv, record_b]
      · rw [exec_keeps_other_of_named hj hbv ht, exec_keeps_other_of_named hj hbv hsj,
          exec_keeps_other_of_named hi hav hsi]
  · rw [exec_issued_of_named hj ht, exec_issued_of_named hi hsi, exec_issued_of_named hi hu,
      exec_issued_of_named hj hsj]

end Sys2Proof.Machine
end

section
/-! What each command answers and leaves (R113, R141, R162, R163, R181, R182). -/

namespace Sys2Proof.Machine

/-! ### INIT -/

/-- INIT below the limit, with the id its draw gives (R181). -/
theorem exec_init_of_drawn {s : State} {sid : SessionId}
    (below : s.sessions.length < s.cfg.maxSessions) (drawn : s.drawSid = some sid) :
    exec .init s = .next ((s.openSession sid).respond .ok 0x01 (bytesOfU64 sid)) := by
  rw [exec_init, initResult, if_neg (by omega), drawn]

/-- A fresh nonzero value lets the draw succeed (R181). -/
theorem exists_drawSid {s : State} (fresh : ∃ v : SessionId, v ≠ 0 ∧ v ∉ s.issued) :
    ∃ sid, s.drawSid = some sid := by
  obtain ⟨v, nonzero, fresh⟩ := fresh
  rw [← Option.ne_none_iff_exists', Ne, drawSid_eq_none_iff]
  exact fun exhausted => fresh (exhausted v nonzero)

/-- Settles O7: the draw gives a fresh id, under which the zeroed record is written. -/
theorem initOpensOneFreshZeroedSession : Obligations.InitOpensOneFreshZeroedSession := by
  intro s inv below fresh
  obtain ⟨sid, drawn⟩ := exists_drawSid fresh
  obtain ⟨nonzero, unissued⟩ := drawSid_some drawn
  refine ⟨sid, _, exec_init_of_drawn below drawn, nonzero, unissued, ?_, fun v apart => ?_,
    putSession_wf inv.sessions_wf sid freshSession, fun v => mem_addIssued sid v s.issued,
    addIssued_wf inv.issued_wf sid, ?_⟩
  · exact findSession_put_self sid freshSession s.sessions
  · exact findSession_put_other apart freshSession s.sessions
  · rw [State.respond_eq_answered, responseBytes_eq]
    rfl

/-- Settles O8: at the limit, and with no id to draw, INIT raises SessionLimitError. -/
theorem initAtTheLimitChangesNothing : Obligations.InitAtTheLimitChangesNothing := by
  intro s refused
  rw [exec_init]
  rcases initResult_cases s with ⟨-, raised⟩ | ⟨sid, below, drawn, -⟩
  · rw [raised, State.raise_eq_answered]
    rfl
  · rcases refused with limit | exhausted
    · omega
    · simp [(drawSid_eq_none_iff s).mpr exhausted] at drawn

/-- Settles O9: the first candidate is drawn when it is fresh. -/
theorem initCanDrawEveryFreshId : Obligations.InitCanDrawEveryFreshId := by
  intro s v below nonzero fresh
  have drawn : State.drawSid { s with draws := [v] } = some v :=
    firstFresh_self nonzero fresh (s.issued.length + 1)
  refine ⟨[v], _, exec_init_of_drawn (s := { s with draws := [v] }) below drawn, ?_, ?_, ?_⟩
  · exact findSession_put_self v freshSession s.sessions
  · exact (mem_addIssued v v s.issued).mpr (.inl rfl)
  · rw [State.respond_responses, responseBytes_eq]
    rfl

/-! ### UPDATE -/

/-- UPDATE on an open session (R141). -/
theorem exec_update_of_open {s : State} {sid : SessionId} {r : Session}
    (found : findSession s.sessions sid = some r) (chunk : List Byte) :
    exec (.update sid chunk) s = .next (State.respond
      { s with sessions := putSession sid (absorbChunk r chunk) s.sessions } .ok 0x02 []) := by
  rw [exec_update, updateResult, lookup_open found]

/-- Settles O10: the record written is `absorbChunk_eq`'s, under an id that was there. -/
theorem updateAbsorbsTheChunk : Obligations.UpdateAbsorbsTheChunk := by
  intro s sid r chunk inv found
  refine ⟨_, exec_update_of_open found chunk, ?_, fun v apart => ?_, ?_, ?_⟩
  · rw [State.respond_sessions, findSession_put_self, absorbChunk_eq]
  · exact findSession_put_other apart _ s.sessions
  · exact putSession_keys_old inv.sessions_wf _ found
  · rw [State.respond_eq_answered, responseBytes_eq]
    rfl

/-- Settles O11: the lookup of an id that is not open raises the error of the policy. -/
theorem closedIdGetsTheLookupError : Obligations.ClosedIdGetsTheLookupError := by
  intro s sid chunk closed
  simp only [exec_update, exec_final, updateResult, finalResult, lookup_closed closed,
    State.raise_eq_answered]
  split <;> exact ⟨rfl, rfl⟩

/-- Settles O15: an open session absorbs the join in two parts; an id that is not open stays so. -/
theorem twoUpdatesAreOneUpdateOfTheJoin : Obligations.TwoUpdatesAreOneUpdateOfTheJoin := by
  intro s sid c d
  cases found : findSession s.sessions sid with
  | none =>
    have refused : ∀ (t : State) (chunk : List Byte), t.lookup sid = s.lookup sid →
        ∃ e, updateResult sid chunk t = t.raise e 0x02 := fun t chunk same => by
      rw [updateResult, same, lookup_closed found]
      exact ⟨_, rfl⟩
    obtain ⟨e, ht⟩ := refused s (c ++ d) rfl
    obtain ⟨e1, ht1⟩ := refused s c rfl
    obtain ⟨e2, ht2⟩ := refused (s.raise e1 0x02) d rfl
    exact ⟨_, _, _, rfl, rfl, rfl, by rw [ht1, ht2, ht]; rfl, by rw [ht1, ht2, ht]; rfl⟩
  | some r =>
    refine ⟨_, _, _, exec_update_of_open found (c ++ d), exec_update_of_open found c,
      exec_update_of_open (findSession_put_self sid (absorbChunk r c) s.sessions) d, ?_, rfl⟩
    simp [absorbChunk_absorbChunk]

/-! ### FINAL -/

/-- FINAL on an open session that the empty-finalization policy refuses (R163). -/
theorem exec_final_of_refused {s : State} {sid : SessionId} {r : Session}
    (found : findSession s.sessions sid = some r) (strict : s.cfg.allowEmptyFinal = false)
    (empty : r.total = 0) :
    exec (.final sid) s = .next ((s.retire sid).raise .emptySession 0x03) := by
  simp only [exec_final, finalResult, lookup_open found, strict, empty, and_self, if_true]

/-- Settles O12: the digest is that of the padded buffer, and the session is dropped. -/
theorem finalReturnsTheDigestAndRetires : Obligations.FinalReturnsTheDigestAndRetires := by
  intro s sid r inv found policy
  refine ⟨_, exec_final_of_open found policy, findSession_drop_self inv.sessions_wf sid,
    inv.open_issued sid r found, fun v apart => findSession_drop_other apart s.sessions,
    dropSession_wf inv.sessions_wf sid, ?_⟩
  rw [State.respond_eq_answered, responseBytes_eq]
  rfl

/-- Settles O13: the policy raises EmptySessionError, and the session is dropped. -/
theorem emptyFinalIsRefusedAndRetires : Obligations.EmptyFinalIsRefusedAndRetires := by
  intro s sid r inv found strict empty
  refine ⟨_, exec_final_of_refused found strict empty, findSession_drop_self inv.sessions_wf sid,
    inv.open_issued sid r found, fun v apart => findSession_drop_other apart s.sessions, ?_⟩
  rw [State.raise_eq_answered]
  rfl

/-- Settles O14: the digest is that of the sponge state and the buffer. -/
theorem byteCounterReachesNoDigest : Obligations.ByteCounterReachesNoDigest := by
  intro s sid A buf m n lenient
  have digest (total : U64) := exec_final_of_open
    (s := { s with sessions := putSession sid ⟨A, buf, total⟩ s.sessions })
    (findSession_put_self sid ⟨A, buf, total⟩ s.sessions) (.inl lenient)
  exact ⟨_, _, digest m, digest n, rfl⟩

/-! ### PERMUTE and HASH -/

/-- Settles O19: PERMUTE answers, and does nothing else. -/
theorem permuteReturnsThePermutedState : Obligations.PermuteReturnsThePermutedState := by
  intro s operand
  rw [exec_permute, State.respond_eq_answered, responseBytes_eq]
  rfl

/-- Dropping a session that was not open before it was written leaves the registry as it was. -/
theorem dropSession_putSession {l : List (SessionId × Session)} (wf : RegistryWf l)
    {sid : SessionId} (closed : findSession l sid = none) (r : Session) :
    dropSession sid (putSession sid r l) = l := by
  have put_wf := putSession_wf wf sid r
  refine registry_ext (dropSession_wf put_wf sid) wf fun v => ?_
  by_cases own : v = sid
  · rw [own, findSession_drop_self put_wf, closed]
  · rw [findSession_drop_other own, findSession_put_other own]

theorem execAll_cons {i : Instr} {s t : State} (hx : exec i s = .next t) (is : List Instr) :
    execAll (i :: is) s = execAll is t := by
  rw [execAll, hx]

/-- Settles O18: INIT opens a fresh session, which absorbs the message, and FINAL answers its digest
and drops it. -/
theorem hashCommandsGiveKeccak256 : Obligations.HashCommandsGiveKeccak256 := by
  intro s message inv below fresh lenient
  obtain ⟨sid, drawn⟩ := exists_drawSid fresh
  have closed := inv.closed_of_not_issued (drawSid_some drawn).2
  obtain ⟨s1, init, opened, cfg1, response1⟩ : ∃ s1, exec .init s = .next s1 ∧
      s1.sessions = putSession sid freshSession s.sessions ∧ s1.cfg = s.cfg ∧
      s1.responses = s.responses ++ [⟨s.sender, responseBytes .ok 0x01 (bytesOfU64 sid)⟩] :=
    ⟨_, exec_init_of_drawn below drawn, rfl, rfl, rfl⟩
  have found1 : findSession s1.sessions sid = some freshSession := by
    rw [opened, findSession_put_self]
  obtain ⟨s2, update, absorbed, cfg2, response2⟩ : ∃ s2,
      exec (.update sid message) s1 = .next s2 ∧
      s2.sessions = putSession sid (absorbChunk freshSession message) s1.sessions ∧
      s2.cfg = s1.cfg ∧ s2.responses = s1.responses ++ [⟨s1.sender, responseBytes .ok 0x02 []⟩] :=
    ⟨_, exec_update_of_open found1 message, rfl, rfl, rfl⟩
  have found2 : findSession s2.sessions sid = some (absorbChunk freshSession message) := by
    rw [absorbed, findSession_put_self]
  have final := exec_final_of_open found2 (.inl (by rw [cfg2, cfg1, lenient]))
  rw [digestOf_absorbChunk_freshSession] at final
  refine ⟨sid, _, ⟨s.sender, responseBytes .ok 0x01 (bytesOfU64 sid)⟩,
    ⟨s1.sender, responseBytes .ok 0x02 []⟩,
    ⟨s2.sender, responseBytes .ok 0x03 (keccak256 message)⟩,
    (execAll_cons init _).trans ((execAll_cons update _).trans (execAll_cons final [])), ?_,
    responseBytes_eq .ok 0x01 (bytesOfU64 sid), responseBytes_eq .ok 0x02 [],
    responseBytes_eq .ok 0x03 (keccak256 message), ?_⟩
  · simp [response1, response2]
  · rw [State.respond_sessions, State.retire_sessions, absorbed, opened, putSession_putSession,
      dropSession_putSession inv.sessions_wf closed]

end Sys2Proof.Machine
end

section
/-! The step, turn by turn: deliveries (R76, R238), the reset input (R232), the engine's turn on
each kind of frame (R79, R238, R239), and the faults (R236, R239). -/

namespace Sys2Proof.Machine

/-! ### Deliveries and the reset input -/

/-- Settles O53: the turn is a delivery, which joins the frames in flight. -/
theorem sendTurnAddsTheFramesOfItsBytes : Obligations.SendTurnAddsTheFramesOfItsBytes :=
  fun _ _ _ _ _ apart listed => step_of_turn apart listed

theorem State.landMore_of_some {s : State} {k : Nat} {f : Frame} (hf : s.port[k]? = some f)
    (bytes : List Byte) : s.landMore k bytes =
      { s with port := s.port.take k ++ framesFrom f.host f.obtained (f.bytes ++ bytes) ++
        s.port.drop (k + 1) } := by
  simp only [State.landMore, hf]

theorem State.landMore_of_none {s : State} {k : Nat} (hk : s.port[k]? = none)
    (bytes : List Byte) : s.landMore k bytes = s := by
  simp only [State.landMore, hk]

/-- Settles O54: the turn is a delivery for the `k`-th frame, if there is one. -/
theorem moreTurnContinuesOneFrame : Obligations.MoreTurnContinuesOneFrame := by
  intro s ts k bytes apart listed
  have delivery : step s = .next (State.landMore { s with turns := ts } k bytes) :=
    step_of_turn apart listed
  refine ⟨fun f hf => ?_, fun hk => ?_⟩
  · rw [delivery, State.landMore_of_some (s := { s with turns := ts }) hf]
  · rw [delivery, State.landMore_of_none (s := { s with turns := ts }) hk]

/-- Settles O3: the reset event drops the frames, and keeps all but the registry. -/
theorem resetInputDropsTheFramesInFlight : Obligations.ResetInputDropsTheFramesInFlight :=
  fun s ts apart listed => ⟨State.hardReset { s with turns := ts }, step_of_reset apart listed,
    State.hardReset_port _, State.hardReset_epoch _, State.hardReset_cfg _,
    State.hardReset_turns _, State.hardReset_draws _, State.hardReset_freeCount _⟩

/-! ### The engine's turn -/

theorem serve_of_none {s : State} {k : Nat} (hk : s.port[k]? = none) : s.serve k = .next s := by
  simp only [State.serve, hk]

theorem serve_of_partial {s : State} {k : Nat} {f : Frame} (hf : s.port[k]? = some f)
    (part : isWhole f.bytes = false) : s.serve k = .next s := by
  simp only [State.serve, hf, (decode_incomplete_iff _).mpr part]

theorem serve_of_illegal {s : State} {k : Nat} {f : Frame} (hf : s.port[k]? = some f)
    (whole : isWhole f.bytes = true) (illegal : ∀ i, decode f.bytes ≠ .ok i) :
    s.serve k = .next ((s.takeFrame k f).raise .illegalCommand (opcodeByte f.bytes)) := by
  rcases serve_cases s k with ⟨-, part⟩ | ⟨g, hg, -, ⟨-, raised⟩ | ⟨i, hi, -⟩⟩
  · simp [part f hf] at whole
  · obtain rfl : f = g := Option.some.inj (hf.symm.trans hg)
    exact raised
  · obtain rfl : f = g := Option.some.inj (hf.symm.trans hg)
    exact absurd hi (illegal i)

theorem serve_of_command {s : State} {k : Nat} {f : Frame} {i : Instr} (hf : s.port[k]? = some f)
    (hi : decode f.bytes = .ok i) : s.serve k =
      if staleUse s.epoch f.obtained i then .fault .staleSessionId
      else exec i (s.takeFrame k f) := by
  simp only [State.serve, hf, hi]

/-- Settles O31: the engine waits on a partly delivered frame. -/
theorem partlyDeliveredFrameWaits : Obligations.PartlyDeliveredFrameWaits := by
  intro s ts k f apart listed hf part
  rw [step_of_turn apart listed]
  exact serve_of_partial (s := { s with turns := ts }) hf part

/-- Settles O30: the engine raises IllegalCommandError on the frame. -/
theorem illegalFrameIsAnsweredOnly : Obligations.IllegalFrameIsAnsweredOnly := by
  intro s ts k f apart listed hf whole illegal
  rw [step_of_turn apart listed]
  refine (serve_of_illegal (s := { s with turns := ts }) hf whole illegal).trans ?_
  rw [State.raise_eq_answered]
  rfl

/-- Settles O28: a command that is no stale use is executed on the frame taken. -/
theorem stepExecutesTheDecodedCommand : Obligations.StepExecutesTheDecodedCommand := by
  intro s ts k f i apart listed hf hi current
  rw [step_of_turn apart listed]
  refine (serve_of_command (s := { s with turns := ts }) hf hi).trans ?_
  exact if_neg (by simp [current])

/-- The stale uses are the commands that name an id obtained before the last reset (R239). -/
theorem staleUse_iff (epoch obtained : Nat) (i : Instr) :
    staleUse epoch obtained i = true ↔
      obtained < epoch ∧ ∃ sid, namesSession sid i = true := by
  cases i with
  | init => simp [staleUse, namesSession]
  | update v chunk => simp [staleUse, namesSession]
  | final v => simp [staleUse, namesSession]
  | permute operand => simp [staleUse, namesSession]

/-- Settles O35: the command names a session, with an id obtained in an earlier epoch. -/
theorem staleIdIsAFault : Obligations.StaleIdIsAFault := by
  intro s ts k f i sid apart listed hf hi named early
  rw [step_of_turn apart listed]
  refine (serve_of_command (s := { s with turns := ts }) hf hi).trans ?_
  exact if_pos ((staleUse_iff _ _ _).mpr ⟨early, sid, named⟩)

/-! ### No turn listed -/

theorem step_of_no_turn {s : State} (apart : s.overlapping = false) (none_listed : s.turns = []) :
    step s = s.serveAny := by
  simp [step, apart, none_listed]

theorem wholeFrames_eq_nil_iff (s : State) :
    s.wholeFrames = [] ↔ ∀ f ∈ s.port, isWhole f.bytes = false := by
  rw [List.eq_nil_iff_forall_not_mem]
  simp only [mem_wholeFrames, not_exists, not_and, Bool.not_eq_true]
  refine ⟨fun h f hf => ?_, fun h k f hf => h f (List.mem_of_getElem? hf)⟩
  obtain ⟨k, hk⟩ := List.mem_iff_getElem?.mp hf
  exact h k f hk

/-- Settles O32: no frame can be chosen. -/
theorem idleEngineKeepsEverything : Obligations.IdleEngineKeepsEverything := by
  intro s apart none_listed none_whole
  rw [step_of_no_turn apart none_listed]
  rcases serveAny_cases s with ⟨-, waits⟩ | ⟨k, n, chosen, -⟩
  · exact waits
  · simp [(wholeFrames_eq_nil_iff s).mpr none_whole] at chosen

/-- With no turn listed and a whole frame in flight, the step is the engine's turn on a whole
frame. -/
theorem step_serves_of_no_turn {s : State} (apart : s.overlapping = false)
    (none_listed : s.turns = []) (some_whole : ∃ f ∈ s.port, isWhole f.bytes = true) :
    ∃ k f n, s.port[k]? = some f ∧ isWhole f.bytes = true ∧ s.freeCount ≤ n ∧
      n ≤ s.freeCount + 1 ∧ step s = State.serve { s with freeCount := n } k := by
  rw [step_of_no_turn apart none_listed]
  rcases serveAny_cases s with ⟨none_whole, -⟩ | ⟨k, n, chosen, low, high, served⟩
  · obtain ⟨f, hf, whole⟩ := some_whole
    simp [(wholeFrames_eq_nil_iff s).mp none_whole f hf] at whole
  · obtain ⟨f, hf, whole⟩ := (mem_wholeFrames s k).mp chosen
    exact ⟨k, f, n, hf, whole, low, high, served⟩

/-- Settles O29: the engine's choice is a whole frame, and its turn on that frame could have been
listed. -/
theorem stepWithoutATurnServesSomeWholeFrame :
    Obligations.StepWithoutATurnServesSomeWholeFrame := by
  intro s apart none_listed some_whole
  obtain ⟨k, f, n, hf, whole, low, high, served⟩ :=
    step_serves_of_no_turn apart none_listed some_whole
  have listed : step { s with turns := [.serve k], freeCount := n } =
      State.serve { s with turns := [], freeCount := n } k :=
    step_of_turn (s := { s with turns := [.serve k], freeCount := n }) apart rfl
  exact ⟨k, f, n, hf, whole, low, high, by rw [listed, served, ← none_listed]⟩

/-! ### Faults (R236, R239) -/

/-- A frame in flight names an id that its sender obtained before the last reset (R239). -/
def State.ShowsStaleId (s : State) : Prop :=
  ∃ f ∈ s.port, f.obtained < s.epoch ∧ ∃ sid, sessionNamed f.bytes = some sid

/-- The engine's turn answers a next state, or is the fault of R239. -/
theorem serve_outcomes (s : State) (k : Nat) :
    (∃ t, s.serve k = .next t) ∨ (s.serve k = .fault .staleSessionId ∧ s.ShowsStaleId) := by
  rcases serve_cases s k with ⟨hr, -⟩ | ⟨f, hf, -, ⟨-, hr⟩ | ⟨i, hi, ⟨stale, hr⟩ | ⟨-, hr⟩⟩⟩ <;>
    rw [hr]
  · exact .inl ⟨_, rfl⟩
  · exact .inl ⟨_, rfl⟩
  · obtain ⟨early, sid, named⟩ := (staleUse_iff _ _ _).mp stale
    exact .inr ⟨rfl, f, List.mem_of_getElem? hf, early, sid,
      (sessionNamed_of_decode hi sid).mpr named⟩
  · exact .inl (exec_next i _)

/-- Everything a step can answer: a next state, or one of the two faults in a state that shows its
cause. -/
theorem step_outcomes (s : State) :
    (s.overlapping = true ∧ step s = .fault .sameSessionOverlap) ∨
      (s.overlapping = false ∧
        ((∃ t, step s = .next t) ∨ (step s = .fault .staleSessionId ∧ s.ShowsStaleId))) := by
  cases apart : s.overlapping with
  | true => exact .inl ⟨rfl, by simp [step, apart]⟩
  | false =>
    refine .inr ⟨rfl, ?_⟩
    cases listed : s.turns with
    | nil =>
      rw [step_of_no_turn apart listed]
      rcases serveAny_cases s with ⟨-, hr⟩ | ⟨k, n, -, -, -, hr⟩ <;> rw [hr]
      · exact .inl ⟨s, rfl⟩
      · exact serve_outcomes { s with freeCount := n } k
    | cons turn ts =>
      rw [step_of_turn apart listed]
      cases turn with
      | serve k => exact serve_outcomes { s with turns := ts } k
      | send host obtained bytes => exact .inl ⟨_, rfl⟩
      | more k bytes => exact .inl ⟨_, rfl⟩
      | reset => exact .inl ⟨_, rfl⟩

/-- Settles O36: the outcomes of a step are a next state and the two faults. -/
theorem onlyHostMisuseStopsTheMachine : Obligations.OnlyHostMisuseStopsTheMachine := by
  intro s
  rcases step_outcomes s with ⟨overlap, hr⟩ | ⟨-, ⟨t, hr⟩ | ⟨hr, stale⟩⟩ <;> rw [hr]
  · refine ⟨nofun, fun φ hφ => .inl ⟨?_, overlap⟩⟩
    cases hφ
    rfl
  · exact ⟨nofun, nofun⟩
  · refine ⟨nofun, fun φ hφ => .inr ⟨?_, stale⟩⟩
    cases hφ
    rfl

theorem hasRepeat_eq_false_iff (l : List SessionId) : hasRepeat l = false ↔ l.Nodup := by
  induction l with
  | nil => simp [hasRepeat]
  | cons v vs ih => simp [hasRepeat, ih]

theorem openNamed_eq_some_iff (s : State) (f : Frame) (sid : SessionId) :
    s.openNamed f = some sid ↔
      sessionNamed f.bytes = some sid ∧ ∃ r, findSession s.sessions sid = some r := by
  rw [← Option.isSome_iff_exists]
  refine ⟨openNamed_some, fun ⟨named, opened⟩ => ?_⟩
  simp only [State.openNamed, named]
  exact if_pos opened

/-- Two frames in flight name one open session (R236, log 7). -/
theorem overlapping_iff (s : State) : s.overlapping = true ↔
    ∃ (m n : Nat) (f g : Frame) (sid : SessionId) (r : Session), m < n ∧
      s.port[m]? = some f ∧ s.port[n]? = some g ∧
      sessionNamed f.bytes = some sid ∧ sessionNamed g.bytes = some sid ∧
      findSession s.sessions sid = some r := by
  rw [← Bool.not_eq_false, State.overlapping, hasRepeat_eq_false_iff, List.Nodup,
    List.pairwise_filterMap, List.pairwise_iff_getElem]
  simp only [openNamed_eq_some_iff]
  constructor
  · intro h
    push Not at h
    obtain ⟨m, n, hm, hn, lt, sid, ⟨hf, r, hr⟩, sid', ⟨hg, -⟩, rfl⟩ := h
    exact ⟨m, n, _, _, sid, r, lt, List.getElem?_eq_getElem hm, List.getElem?_eq_getElem hn,
      hf, hg, hr⟩
  · rintro ⟨m, n, f, g, sid, r, lt, hm, hn, hf, hg, hr⟩ apart
    obtain ⟨m_lt, rfl⟩ := List.getElem?_eq_some_iff.mp hm
    obtain ⟨n_lt, rfl⟩ := List.getElem?_eq_some_iff.mp hn
    exact apart m n m_lt n_lt lt sid ⟨hf, r, hr⟩ sid ⟨hg, r, hr⟩ rfl

/-- Settles O34: the step faults so exactly in a state that shows the overlap. -/
theorem overlapFaultsExactlyOnTwoFramesOfOneSession :
    Obligations.OverlapFaultsExactlyOnTwoFramesOfOneSession := by
  intro s
  rw [← overlapping_iff]
  rcases step_outcomes s with ⟨overlap, hr⟩ | ⟨apart, ⟨t, hr⟩ | ⟨hr, -⟩⟩ <;> rw [hr]
  · simp [overlap]
  · simp [apart]
  · simp [apart]

end Sys2Proof.Machine
end

section
/-! What all steps have in common: the configuration stays (R32, R37), the registry changes only
with a response (R60), issued ids stay issued (R183), responses have the form of R77, and none is
read again (R31). -/

namespace Sys2Proof.Machine

@[simp] theorem State.landMore_cfg (s : State) (k : Nat) (bytes : List Byte) :
    (s.landMore k bytes).cfg = s.cfg := by
  obtain ⟨port, hp⟩ := State.landMore_eq s k bytes
  rw [hp]

@[simp] theorem State.landMore_sessions (s : State) (k : Nat) (bytes : List Byte) :
    (s.landMore k bytes).sessions = s.sessions := by
  obtain ⟨port, hp⟩ := State.landMore_eq s k bytes
  rw [hp]

@[simp] theorem State.landMore_issued (s : State) (k : Nat) (bytes : List Byte) :
    (s.landMore k bytes).issued = s.issued := by
  obtain ⟨port, hp⟩ := State.landMore_eq s k bytes
  rw [hp]

/-- Between the states the `k`-th frame in flight has left, answered to its host. -/
def State.AnswersFrame (s t : State) (k : Nat) (f : Frame) (bytes : List Byte) : Prop :=
  s.port[k]? = some f ∧ t.port = s.port.eraseIdx k ∧
    t.responses = s.responses ++ [{ host := f.host, bytes := bytes }]

/-- Every command on a frame taken answers that frame. -/
theorem answersFrame_of_exec {s t : State} {ts : List Turn} {n k : Nat} {f : Frame} {i : Instr}
    (hf : s.port[k]? = some f)
    (hx : exec i (State.takeFrame { s with turns := ts, freeCount := n } k f) = .next t) :
    ∃ bytes, s.AnswersFrame t k f bytes := by
  obtain ⟨-, port, -, -, bytes, responses⟩ := exec_answers hx
  exact ⟨bytes, hf, port, responses⟩

/-- A step keeps the configuration, and it answers one frame, or emits nothing and keeps the
registry unless it is the reset. -/
theorem step_answers_or_keeps {s t : State} (h : step s = .next t) :
    t.cfg = s.cfg ∧ ((∃ k f bytes, s.AnswersFrame t k f bytes) ∨
      (t.responses = s.responses ∧
        ((t.sessions = s.sessions ∧ t.issued = s.issued) ∨ ∃ ts, s.turns = .reset :: ts))) := by
  obtain ⟨-, ⟨host, obtained, bytes, ts, -, rfl⟩ | ⟨k, bytes, ts, -, rfl⟩ | ⟨ts, listed, rfl⟩ |
    ⟨ts, ht⟩ | ⟨ts, n, k, f, hf, -, -, rfl⟩ | ⟨ts, n, k, f, i, hf, -, -, -, hx⟩⟩ :=
    step_next_cases h
  · exact ⟨rfl, .inr ⟨rfl, .inl ⟨rfl, rfl⟩⟩⟩
  · exact ⟨by simp, .inr ⟨by simp, .inl ⟨by simp, by simp⟩⟩⟩
  · exact ⟨rfl, .inr ⟨rfl, .inr ⟨ts, listed⟩⟩⟩
  · rw [ht]
    exact ⟨rfl, .inr ⟨rfl, .inl ⟨rfl, rfl⟩⟩⟩
  · exact ⟨rfl, .inl ⟨k, f, _, hf, rfl, rfl⟩⟩
  · exact ⟨(exec_answers hx).1, .inl ⟨k, f, answersFrame_of_exec hf hx⟩⟩

/-- Settles O6: whatever the step does, the configuration stays. -/
theorem noStepChangesTheConfiguration : Obligations.NoStepChangesTheConfiguration :=
  fun _ _ h => (step_answers_or_keeps h).1

/-- Settles O25: the frame answered is the one that leaves. -/
theorem registryChangesOnlyWithAResponse : Obligations.RegistryChangesOnlyWithAResponse := by
  intro s t h
  refine (step_answers_or_keeps h).2.imp_left fun ⟨k, f, bytes, hf, port, responses⟩ => ?_
  obtain ⟨hk, -⟩ := List.getElem?_eq_some_iff.mp hf
  refine ⟨_, responses, ?_⟩
  rw [port, List.length_eraseIdx_of_lt hk]
  omega

/-- Settles O26: only commands change the registry, and none of them opens an issued id. -/
theorem issuedIdsAreNeverReopened : Obligations.IssuedIdsAreNeverReopened := by
  intro s t v h no_reset issued
  obtain ⟨-, ⟨host, obtained, bytes, ts, -, rfl⟩ | ⟨k, bytes, ts, -, rfl⟩ | ⟨ts, listed, -⟩ |
    ⟨ts, ht⟩ | ⟨ts, n, k, f, -, -, -, rfl⟩ | ⟨ts, n, k, f, i, -, -, -, -, hx⟩⟩ :=
    step_next_cases h
  · exact ⟨issued, id⟩
  · exact ⟨by simpa using issued, by simp⟩
  · exact absurd listed (no_reset ts)
  · rw [ht]
    exact ⟨issued, id⟩
  · exact ⟨issued, id⟩
  · refine ⟨exec_keeps_issued hx issued, fun closed => ?_⟩
    have before : State.Unopenable (State.takeFrame { s with turns := ts, freeCount := n } k f) v :=
      ⟨closed, .inr issued⟩
    exact (before.after_exec hx).1

end Sys2Proof.Machine

namespace Sys2Proof

/-- `OPC` of a command (R73). -/
def Instr.opcode : Instr → Byte
  | .init => 0x01
  | .update _ _ => 0x02
  | .final _ => 0x03
  | .permute _ => 0x04

/-- The number of bytes a command answers with OK (R77). -/
def Instr.resultLength : Instr → Nat
  | .init => 8
  | .update _ _ => 0
  | .final _ => 32
  | .permute _ => 200

theorem opcodeByte_of_decode {bytes : List Byte} {i : Instr} (h : decode bytes = .ok i) :
    opcodeByte bytes = i.opcode := by
  obtain ⟨hd, hh, -, hdec⟩ := decode_whole (isWhole_of_decode h)
  rw [opcodeByte_eq_opc hh]
  rcases decodeHeader_ok (hdec ▸ h) with ⟨h0, -, -, rfl⟩ | ⟨h0, rfl⟩ | ⟨h0, -, rfl⟩ |
    ⟨h0, -, -, rfl⟩
  · exact ((w0_eq_iff hd rfl).mp h0).2
  · exact ((w0_eq_iff hd rfl).mp h0).2
  · exact ((w0_eq_iff hd rfl).mp h0).2
  · exact ((w0_eq_iff hd rfl).mp h0).2

end Sys2Proof

namespace Sys2Proof.Machine

theorem Status.code_le_five (e : Status) : e.code.toNat ≤ 5 := by
  cases e <;> decide

theorem Status.code_eq_zero_iff (e : Status) : e.code = 0x00 ↔ e = .ok := by
  cases e <;> decide

theorem lookup_error_ne_ok {s : State} {sid : SessionId} {e : Status}
    (h : s.lookup sid = .error e) : e ≠ .ok := by
  rw [lookup_closed (not_open_of_lookup_error h)] at h
  cases h
  split <;> decide

/-- The response of every command (R77): its opcode, no payload with an error, and with OK as many
bytes as the command answers. -/
theorem exec_response_form {i : Instr} {s t : State} (hx : exec i s = .next t) :
    ∃ status payload, t.responses = s.responses ++
        [{ host := s.sender, bytes := responseBytes status i.opcode payload }] ∧
      (status ≠ .ok → payload = []) ∧ (status = .ok → payload.length = i.resultLength) := by
  cases i with
  | init =>
    cases hx
    rcases initResult_cases s with ⟨-, ht⟩ | ⟨sid, -, -, ht⟩ <;> rw [ht]
    · exact ⟨.sessionLimit, [], rfl, fun _ => rfl, nofun⟩
    · exact ⟨.ok, bytesOfU64 sid, rfl, nofun, fun _ => bytesOfU64_length sid⟩
  | update sid chunk =>
    cases hx
    rcases updateResult_cases sid chunk s with ⟨e, -, ht⟩ | ⟨r, -, ht⟩ <;> rw [ht]
    · exact ⟨e, [], rfl, fun _ => rfl, fun _ => rfl⟩
    · exact ⟨.ok, [], rfl, nofun, fun _ => rfl⟩
  | final sid =>
    cases hx
    rcases finalResult_cases sid s with ⟨e, he, ht⟩ | ⟨r, -, -, -, ht⟩ | ⟨r, -, -, ht⟩ <;> rw [ht]
    · exact ⟨e, [], rfl, fun _ => rfl, fun ok => absurd ok (lookup_error_ne_ok he)⟩
    · exact ⟨.emptySession, [], rfl, fun _ => rfl, nofun⟩
    · exact ⟨.ok, digestOf r, rfl, nofun, fun _ => squeeze_length _⟩
  | permute operand =>
    cases hx
    exact ⟨.ok, _, rfl, nofun, fun _ => bytesOf_length _⟩

/-- Settles O24: the frame is illegal and answered so, or a command, whose response has the form of
`exec_response_form`. -/
theorem responsesHaveTheirForm : Obligations.ResponsesHaveTheirForm := by
  intro s t r h hr
  obtain ⟨-, ⟨host, obtained, bytes, ts, -, rfl⟩ | ⟨k, bytes, ts, -, rfl⟩ | ⟨ts, -, rfl⟩ |
    ⟨ts, ht⟩ | ⟨ts, n, k, f, hf, whole, -, rfl⟩ | ⟨ts, n, k, f, i, hf, whole, hi, -, hx⟩⟩ :=
    step_next_cases h
  · simp at hr
  · simp at hr
  · simp at hr
  · rw [ht] at hr
    simp at hr
  · obtain rfl : r = ⟨f.host, responseBytes .illegalCommand (opcodeByte f.bytes) []⟩ := by
      simpa [State.raise_eq_respond] using hr.symm
    exact ⟨k, f, 0x04, [], hf, whole, rfl, rfl, responseBytes_eq _ _ _, by decide, fun _ => rfl,
      nofun⟩
  · obtain ⟨-, port, -⟩ := exec_answers hx
    obtain ⟨status, payload, responses, error, ok⟩ := exec_response_form hx
    obtain rfl : r = ⟨f.host, responseBytes status i.opcode payload⟩ := by
      simpa using hr.symm.trans responses
    have opcode := opcodeByte_of_decode hi
    refine ⟨k, f, status.code, payload, hf, whole, port, rfl, ?_, status.code_le_five, ?_, ?_⟩
    · rw [opcode, responseBytes_eq]
    · exact fun h0 => error fun e => h0 (status.code_eq_zero_iff.mpr e)
    · intro h0
      have length := ok (status.code_eq_zero_iff.mp h0)
      rw [opcode]
      cases i with
      | init => exact .inl ⟨rfl, length⟩
      | update sid chunk => exact .inr (.inl ⟨rfl, List.eq_nil_of_length_eq_zero length⟩)
      | final sid => exact .inr (.inr (.inl ⟨rfl, length⟩))
      | permute operand => exact .inr (.inr (.inr ⟨rfl, length⟩))

/-! ### The responses emitted so far (R31, R242) -/

/-- The state with earlier responses put before its own. -/
def State.withEarlier (s : State) (rs : List Response) : State :=
  { s with responses := rs ++ s.responses }

section withEarlier
variable (s : State) (rs : List Response)

theorem State.withEarlier_respond (status : Status) (ropc : Byte) (payload : List Byte) :
    (s.withEarlier rs).respond status ropc payload =
      (s.respond status ropc payload).withEarlier rs := by
  simp only [State.respond, State.withEarlier, List.append_assoc]
  rfl

theorem initResult_withEarlier :
    initResult (s.withEarlier rs) = (initResult s).withEarlier rs := by
  have same_draw : (s.withEarlier rs).drawSid = s.drawSid := rfl
  by_cases limit : s.cfg.maxSessions ≤ s.sessions.length
  · have limit' : (s.withEarlier rs).cfg.maxSessions ≤ (s.withEarlier rs).sessions.length := limit
    rw [initResult, initResult, if_pos limit, if_pos limit']
    exact s.withEarlier_respond rs .sessionLimit 0x01 []
  · have below : ¬(s.withEarlier rs).cfg.maxSessions ≤ (s.withEarlier rs).sessions.length := limit
    rw [initResult, initResult, if_neg limit, if_neg below, same_draw]
    cases s.drawSid with
    | none => exact s.withEarlier_respond rs .sessionLimit 0x01 []
    | some sid => exact (s.openSession sid).withEarlier_respond rs .ok 0x01 (bytesOfU64 sid)

theorem updateResult_withEarlier (sid : SessionId) (chunk : List Byte) :
    updateResult sid chunk (s.withEarlier rs) = (updateResult sid chunk s).withEarlier rs := by
  have same_lookup : (s.withEarlier rs).lookup sid = s.lookup sid := rfl
  rw [updateResult, updateResult, same_lookup]
  cases s.lookup sid with
  | error e => exact s.withEarlier_respond rs e 0x02 []
  | ok r =>
    exact State.withEarlier_respond
      { s with sessions := putSession sid (absorbChunk r chunk) s.sessions } rs .ok 0x02 []

theorem finalResult_withEarlier (sid : SessionId) :
    finalResult sid (s.withEarlier rs) = (finalResult sid s).withEarlier rs := by
  have same_lookup : (s.withEarlier rs).lookup sid = s.lookup sid := rfl
  have same_cfg : (s.withEarlier rs).cfg = s.cfg := rfl
  rw [finalResult, finalResult, same_lookup, same_cfg]
  cases s.lookup sid with
  | error e => exact s.withEarlier_respond rs e 0x03 []
  | ok r =>
    dsimp only
    split
    · exact (s.retire sid).withEarlier_respond rs .emptySession 0x03 []
    · exact (s.retire sid).withEarlier_respond rs .ok 0x03 (digestOf r)

theorem exec_withEarlier (i : Instr) :
    exec i (s.withEarlier rs) = mapNext (·.withEarlier rs) (exec i s) := by
  cases i with
  | init => exact congrArg Host.Outcome.next (initResult_withEarlier s rs)
  | update sid chunk => exact congrArg Host.Outcome.next (updateResult_withEarlier s rs sid chunk)
  | final sid => exact congrArg Host.Outcome.next (finalResult_withEarlier s rs sid)
  | permute operand => exact congrArg Host.Outcome.next (s.withEarlier_respond rs _ _ _)

theorem serve_withEarlier (k : Nat) :
    (s.withEarlier rs).serve k = mapNext (·.withEarlier rs) (s.serve k) := by
  have same_frame : (s.withEarlier rs).port[k]? = s.port[k]? := rfl
  cases hf : s.port[k]? with
  | none => rw [serve_of_none hf, serve_of_none (same_frame.trans hf), mapNext]
  | some f =>
    have hf' := same_frame.trans hf
    cases part : isWhole f.bytes with
    | false => rw [serve_of_partial hf part, serve_of_partial hf' part, mapNext]
    | true =>
      by_cases command : ∃ i, decode f.bytes = .ok i
      · obtain ⟨i, hi⟩ := command
        have same_epoch : (s.withEarlier rs).epoch = s.epoch := rfl
        rw [serve_of_command hf hi, serve_of_command hf' hi, same_epoch]
        split
        · rfl
        · exact exec_withEarlier (s.takeFrame k f) rs i
      · rw [not_exists] at command
        rw [serve_of_illegal hf part command, serve_of_illegal hf' part command]
        exact congrArg Host.Outcome.next ((s.takeFrame k f).withEarlier_respond rs _ _ [])

theorem serveAny_withEarlier :
    (s.withEarlier rs).serveAny = mapNext (·.withEarlier rs) s.serveAny := by
  have same_frames : (s.withEarlier rs).wholeFrames = s.wholeFrames := rfl
  rw [State.serveAny, State.serveAny, same_frames]
  match s.wholeFrames with
  | [] => rfl
  | [k] => exact serve_withEarlier s rs k
  | k :: l :: rest => exact serve_withEarlier { s with freeCount := s.freeCount + 1 } rs _

theorem takeTurn_withEarlier (turn : Turn) :
    (s.withEarlier rs).takeTurn turn = mapNext (·.withEarlier rs) (s.takeTurn turn) := by
  cases turn with
  | serve k => exact serve_withEarlier s rs k
  | send host obtained bytes => rfl
  | more k bytes =>
    refine congrArg Host.Outcome.next ?_
    have same_frame : (s.withEarlier rs).port[k]? = s.port[k]? := rfl
    cases hf : s.port[k]? with
    | none => rw [State.landMore_of_none hf, State.landMore_of_none (same_frame.trans hf)]
    | some f =>
      rw [State.landMore_of_some hf, State.landMore_of_some (same_frame.trans hf)]
      rfl
  | reset => rfl

end withEarlier

/-- Settles O27: no operation of the engine reads the responses, and each adds its own behind. -/
theorem emittedResponsesAreNeverRead : Obligations.EmittedResponsesAreNeverRead := by
  intro s rs
  change step (s.withEarlier rs) = mapNext (·.withEarlier rs) (step s)
  have same_overlap : (s.withEarlier rs).overlapping = s.overlapping := rfl
  have same_turns : (s.withEarlier rs).turns = s.turns := rfl
  rw [step, step, same_overlap, same_turns]
  cases s.overlapping with
  | true => rfl
  | false =>
    cases s.turns with
    | nil => exact serveAny_withEarlier s rs
    | cons turn ts => exact takeTurn_withEarlier { s with turns := ts } rs turn

end Sys2Proof.Machine
end

section
/-! Liveness (R241): from an answerable state each turn of the engine on a whole frame answers it
and leaves an answerable state, so that every whole frame gets its response. -/

namespace Sys2Proof.Machine

/-! ### One turn -/

/-- Answering one frame keeps State.Answerable, when the epoch stays and no id that could not be
opened can be. -/
theorem State.Answerable.after_answer {s t : State} (h : s.Answerable) {k : Nat} {f : Frame}
    {bytes : List Byte} (answer : s.AnswersFrame t k f bytes) (epoch : t.epoch = s.epoch)
    (barred : ∀ v, s.Unopenable v → t.Unopenable v) : t.Answerable := by
  obtain ⟨-, port, -⟩ := answer
  obtain ⟨current, apart⟩ := h
  have left : t.port.Sublist s.port := port ▸ List.eraseIdx_sublist s.port k
  refine ⟨fun g hg => epoch ▸ current g (left.subset hg), ?_⟩
  exact (apart.sublist left).imp fun named sid hf hg => barred sid (named sid hf hg)

/-- The engine's turn on a whole frame of an answerable state. -/
theorem serve_of_answerable {s : State} (h : s.Answerable) {k : Nat} {f : Frame}
    (hf : s.port[k]? = some f) (whole : isWhole f.bytes = true) :
    ∃ t bytes, s.serve k = .next t ∧ t.turns = s.turns ∧ s.AnswersFrame t k f bytes ∧
      t.Answerable := by
  by_cases command : ∃ i, decode f.bytes = .ok i
  · obtain ⟨i, hi⟩ := command
    have current : ¬staleUse s.epoch f.obtained i = true := by
      rw [staleUse_iff]
      rintro ⟨early, sid, named⟩
      have := h.ids_current f (List.mem_of_getElem? hf) whole sid
        ((sessionNamed_of_decode hi sid).mpr named)
      omega
    obtain ⟨t, ht⟩ := exec_next i (s.takeFrame k f)
    obtain ⟨-, -, turns, epoch, -⟩ := exec_answers ht
    obtain ⟨bytes, answer⟩ := answersFrame_of_exec hf ht
    refine ⟨t, bytes, ?_, turns, answer, h.after_answer answer epoch fun v barred => ?_⟩
    · rw [serve_of_command hf hi, if_neg current, ht]
    · have taken : (s.takeFrame k f).Unopenable v := barred
      exact taken.after_exec ht
  · have answer : s.AnswersFrame ((s.takeFrame k f).raise .illegalCommand (opcodeByte f.bytes))
        k f _ := ⟨hf, rfl, rfl⟩
    exact ⟨_, _, serve_of_illegal hf whole (not_exists.mp command), rfl, answer,
      h.after_answer answer rfl fun _ barred => barred⟩

/-- With no turn listed, the step answers a whole frame of the engine's choice. -/
theorem step_of_answerable {s : State} (h : s.Answerable) (none_listed : s.turns = [])
    (some_whole : ∃ f ∈ s.port, isWhole f.bytes = true) :
    ∃ k f t bytes, isWhole f.bytes = true ∧ step s = .next t ∧ t.turns = [] ∧
      s.AnswersFrame t k f bytes ∧ t.Answerable := by
  obtain ⟨k, f, n, hf, whole, -, -, served⟩ :=
    step_serves_of_no_turn (overlapping_of_answerable h) none_listed some_whole
  have same : State.Answerable { s with freeCount := n } := ⟨h.ids_current, h.names_apart⟩
  obtain ⟨t, bytes, ht, turns, answer, after⟩ := serve_of_answerable same hf whole
  exact ⟨k, f, t, bytes, whole, served.trans ht, turns.trans none_listed, answer, after⟩

/-- Settles O52: the step is the engine's turn on the frame listed, or on one of its choice. -/
theorem servingStepsAnswerOneFrameAndStayAnswerable :
    Obligations.ServingStepsAnswerOneFrameAndStayAnswerable := by
  intro s h
  constructor
  · intro ts k f listed hf whole
    have same : State.Answerable { s with turns := ts } := ⟨h.ids_current, h.names_apart⟩
    obtain ⟨t, bytes, ht, turns, ⟨-, port, responses⟩, after⟩ := serve_of_answerable same hf whole
    refine ⟨t, bytes, ?_, turns, port, responses, after⟩
    exact (step_of_turn (overlapping_of_answerable h) listed).trans ht
  · intro none_listed some_whole
    obtain ⟨k, f, t, bytes, whole, ht, turns, ⟨hf, port, responses⟩, after⟩ :=
      step_of_answerable h none_listed some_whole
    exact ⟨k, f, t, bytes, hf, whole, ht, turns, port, responses, after⟩

/-! ### As many turns as whole frames -/

theorem filter_eraseIdx_of_pos {α : Type} {p : α → Bool} {l : List α} {k : Nat} {f : α}
    (hf : l[k]? = some f) (hp : p f = true) : (f :: (l.eraseIdx k).filter p).Perm (l.filter p) := by
  obtain ⟨hk, rfl⟩ := List.getElem?_eq_some_iff.mp hf
  rw [← List.filter_cons_of_pos hp]
  exact (List.getElem_cons_eraseIdx_perm hk).filter p

theorem filter_eraseIdx_of_neg {α : Type} {p : α → Bool} {l : List α} {k : Nat} {f : α}
    (hf : l[k]? = some f) (hp : p f = false) : (l.eraseIdx k).filter p = l.filter p := by
  obtain ⟨hk, rfl⟩ := List.getElem?_eq_some_iff.mp hf
  conv_rhs => rw [← List.take_append_drop k l, List.drop_eq_getElem_cons hk]
  rw [List.eraseIdx_eq_take_drop_succ, List.filter_append, List.filter_append,
    List.filter_cons_of_neg (by simp [hp])]

/-- From an answerable state with no turn listed, as many steps as there are whole frames answer
them all and leave the others. -/
theorem run_answers_whole_frames (n : Nat) {s : State} (h : s.Answerable)
    (none_listed : s.turns = []) (count : (s.port.filter fun f => isWhole f.bytes).length = n) :
    ∃ (t : State) (rs : List Response), Host.Core.run Sys2Proof.core n s = .next t ∧
      t.turns = [] ∧ t.responses = s.responses ++ rs ∧
      (rs.map Response.host).Perm ((s.port.filter fun f => isWhole f.bytes).map Frame.host) ∧
      t.port = s.port.filter fun f => !isWhole f.bytes := by
  induction n generalizing s with
  | zero =>
    have none_whole := List.eq_nil_of_length_eq_zero count
    refine ⟨s, [], rfl, none_listed, (List.append_nil _).symm, ?_, ?_⟩
    · rw [none_whole]
      exact .refl _
    · rw [eq_comm, List.filter_eq_self]
      simpa [List.filter_eq_nil_iff] using none_whole
  | succ n ih =>
    obtain ⟨g, hg⟩ := List.exists_mem_of_length_eq_add_one count
    obtain ⟨k, f, u, bytes, whole, hu, uturns, ⟨hf, uport, uresponses⟩, answerable⟩ :=
      step_of_answerable h none_listed ⟨g, List.mem_filter.mp hg⟩
    have answered := filter_eraseIdx_of_pos (p := fun f => isWhole f.bytes) hf whole
    rw [← uport] at answered
    have fewer : (u.port.filter fun f => isWhole f.bytes).length = n := by
      have := answered.length_eq
      rw [List.length_cons, count] at this
      omega
    obtain ⟨t, rs, ht, turns, responses, hosts, port⟩ := ih answerable uturns fewer
    refine ⟨t, { host := f.host, bytes := bytes } :: rs,
      (run_succ Sys2Proof.core hu n).trans ht, turns, ?_, ?_, ?_⟩
    · rw [responses, uresponses, List.append_assoc]
      rfl
    · exact (hosts.cons f.host).trans (answered.map Frame.host)
    · rw [port, uport]
      exact filter_eraseIdx_of_neg hf (by simp [whole])

/-- Settles O37: each step answers one whole frame; with no other frame in flight, none is left. -/
theorem everyWholeFrameIsAnswered : Obligations.EveryWholeFrameIsAnswered := by
  intro s none_listed h
  obtain ⟨t, rs, run, turns, responses, hosts, port⟩ :=
    run_answers_whole_frames _ h none_listed rfl
  refine ⟨t, rs, run, responses, hosts, port, fun all_whole => ⟨?_, turns⟩⟩
  rw [port, List.filter_eq_nil_iff]
  intro f hf
  simp [all_whole f hf]

end Sys2Proof.Machine
end

section
/-! Rotations, tables, the byte view and the padding (R11, R23, R105, R109, R160). -/

namespace Sys2Proof.Machine

/-! ### Rotations and the round steps -/

/-- Settles O46: the bit moves up by `n`, or goes round to the bits below `n`. -/
theorem rotationMovesEveryBit : Obligations.RotationMovesEveryBit := by
  intro a n i hn hi
  rw [getLsbD_rotl64 a (by omega) (Nat.mod_lt _ (by omega))]
  by_cases wraps : 64 ≤ i + n
  · rw [if_pos (by omega), show 64 - n + (i + n) % 64 = i by omega]
  · rw [if_neg (by omega), show (i + n) % 64 - n = i by omega]

/-- The state with every lane `w`. -/
def Sponge.fill (w : Lane) : Sponge := Sponge.build fun _ _ => w

@[simp] theorem Sponge.at_fill (w : Lane) (x y : Nat) : Sponge.at (Sponge.fill w) x y = w :=
  Sponge.at_build _ x y

theorem Sponge.zero_eq_fill : Sponge.zero = Sponge.fill 0 :=
  Sponge.ext_at fun x _ y _ => by rw [Sponge.at_zero, Sponge.at_fill]

theorem columnParity_fill (w : Lane) (x : Nat) : columnParity (Sponge.fill w) x = w := by
  simp [columnParity]

/-- θ keeps a state of equal lanes that a rotation by 1 keeps (R103). -/
theorem theta_fill {w : Lane} (turns : rotl64 w 1 = w) : theta (Sponge.fill w) = Sponge.fill w :=
  Sponge.ext_at fun x _ y _ => by
    rw [theta_at, columnParity_fill, columnParity_fill, turns, BitVec.xor_self, BitVec.xor_zero]

/-- ρ keeps a state of equal lanes that every rotation keeps (R104). -/
theorem rho_fill {w : Lane} (turns : ∀ n, rotl64 w n = w) :
    rho (Sponge.fill w) = Sponge.fill w :=
  Sponge.ext_at fun x _ y _ => by rw [rho_at, Sponge.at_fill, turns]

theorem pi_fill (w : Lane) : pi (Sponge.fill w) = Sponge.fill w :=
  Sponge.ext_at fun x _ y _ => by rw [pi_at, Sponge.at_fill, Sponge.at_fill]

/-- χ keeps a state of equal lanes (R107). -/
theorem chi_fill (w : Lane) : chi (Sponge.fill w) = Sponge.fill w :=
  Sponge.ext_at fun x _ y _ => by simp [chi_at]

theorem rotl64_of_zero (n : Nat) : rotl64 0 n = 0 := by
  simp [rotl64]

/-- Settles O45: both states have equal lanes that the rotations keep; ι of round 0 sets the 1. -/
theorem roundStepsKeepZeroAndOnes : Obligations.RoundStepsKeepZeroAndOnes := by
  have theta_zero := theta_fill (rotl64_of_zero 1)
  have rho_zero := rho_fill rotl64_of_zero
  refine ⟨?_, ?_, ?_, ?_, theta_fill (by decide), chi_fill _, ?_⟩ <;> rw [Sponge.zero_eq_fill]
  · exact theta_zero
  · exact rho_zero
  · exact pi_fill 0
  · exact chi_fill 0
  · rw [rnd, theta_zero, rho_zero, pi_fill, chi_fill]
    refine Sponge.ext_at fun x hx y hy => ?_
    rw [iota_at _ _ hx hy, Sponge.at_build, Nat.mod_eq_of_lt hx, Nat.mod_eq_of_lt hy,
      Sponge.at_fill, Sponge.at_fill]
    rfl

/-- Settles O47: both rules are run for every round and every move of the walk. -/
theorem tablesFollowTheirGeneratingRules : Obligations.TablesFollowTheirGeneratingRules := by
  have constants : ∀ ir < 24, roundConstant ir = generatedConstant ir := by decide
  have offsets : ∀ t < 24,
      rotationOffset (rhoWalk t).1 (rhoWalk t).2 = ((t + 1) * (t + 2) / 2) % 64 := by decide
  exact ⟨constants, rfl, offsets⟩

/-! ### The byte view -/

/-- Settles O49: the rule for reading a byte after writing one. -/
theorem memWriteChangesOneByte : Obligations.MemWriteChangesOneByte :=
  fun A v _ k hj _ => memRead_memWrite A v hj k

theorem bytesOf_getD (A : Sponge) {k : Nat} (hk : k < 200) :
    (bytesOf A).getD k 0 = memRead A k := by
  rw [bytesOf, List.getD_eq_getElem _ _ (by simpa using hk), memReadN_getElem, Nat.zero_add]

/-- Byte `k` of the state made of 200 bytes is the `k`-th of them (R23). -/
theorem memRead_lanesOf (bytes : List Byte) {k : Nat} (hk : k < 200) :
    memRead (lanesOf bytes) k = bytes.getD k 0 := by
  rw [memRead, Sponge.lane_lanesOf bytes (by omega), u64OfBytes_extractLsb' _ _ (by omega)]
  have in_lane : k % 8 < 8 := Nat.mod_lt _ (by omega)
  simp [List.getD, in_lane, Nat.div_add_mod]

/-- Settles O48: both ways the bytes are the same, and the bytes determine the state. -/
theorem bytesAndLanesAreInverse : Obligations.BytesAndLanesAreInverse := by
  refine ⟨fun A => Sponge.ext_memRead fun k hk => ?_, fun bytes length => ?_⟩
  · rw [memRead_lanesOf _ hk, bytesOf_getD A hk]
  · refine List.ext_getElem (by rw [bytesOf_length, length]) fun k hk hk' => ?_
    rw [bytesOf_length] at hk
    rw [← List.getD_eq_getElem (d := 0), ← List.getD_eq_getElem (d := 0), bytesOf_getD _ hk,
      memRead_lanesOf bytes hk]

/-! ### Padding -/

/-- Equal padded blocks have equal bytes before the last pad byte is XORed in (R160). -/
theorem getD_concat_padFirst_of_pad_eq {b c : List Byte} (hb : b.length ≤ 135)
    (hc : c.length ≤ 135) (h : pad b = pad c) (k : Nat) :
    (b ++ [padFirst]).getD k 0 = (c ++ [padFirst]).getD k 0 := by
  have same_byte := congrArg (List.getD · k 0) h
  simp only [getD_pad hb, getD_pad hc, BitVec.xor_left_inj] at same_byte
  rwa [getD_concat, getD_concat]

/-- The longer of two buffers with equal blocks has its first pad byte where the other has 0. -/
theorem length_le_of_pad_eq {b c : List Byte} (hb : b.length ≤ 135) (hc : c.length ≤ 135)
    (h : pad b = pad c) : c.length ≤ b.length := by
  by_contra longer
  have marker := getD_concat_padFirst_of_pad_eq hb hc h c.length
  rw [getD_concat c, if_pos rfl, List.getD_eq_default _ _ (by simp; omega)] at marker
  simp [padFirst] at marker

/-- Settles O51: equal blocks give equal lengths, then equal bytes. -/
theorem padIsInjective : Obligations.PadIsInjective := by
  intro b c hb hc h
  have same_length : b.length = c.length :=
    (length_le_of_pad_eq hc hb h.symm).antisymm (length_le_of_pad_eq hb hc h)
  refine List.ext_getElem same_length fun k hkb hkc => ?_
  have same_byte := getD_concat_padFirst_of_pad_eq hb hc h k
  rw [List.getD_append _ _ _ _ hkb, List.getD_append _ _ _ _ hkc] at same_byte
  rwa [List.getD_eq_getElem _ _ hkb, List.getD_eq_getElem _ _ hkc] at same_byte

end Sys2Proof.Machine
end

section
/-! How delivered bytes become frames (R76). -/

namespace Sys2Proof

/-- Cutting loses no byte, when the number of frames allowed is at least that of the bytes. -/
theorem splitFrames_flatten {n : Nat} {bytes : List Byte} (enough : bytes.length ≤ n) :
    (splitFrames n bytes).flatten = bytes := by
  induction n generalizing bytes with
  | zero => rw [List.eq_nil_of_length_eq_zero (Nat.le_zero.mp enough)]; rfl
  | succ n ih =>
    unfold splitFrames
    split
    next empty => exact empty.symm
    next =>
      split
      next => exact List.flatten_singleton
      next len hlen =>
        split
        next => exact List.flatten_singleton
        next =>
          have h24 := frameLength_ge hlen
          rw [List.flatten_cons, ih (by rw [List.length_drop]; omega), List.take_append_drop]

/-- A piece cut off in front of further bytes is a frame of exactly its length. -/
theorem frameLength_take_self {bytes : List Byte} {len : Nat} (hlen : frameLength bytes = some len)
    (longer : len < bytes.length) :
    frameLength (bytes.take len) = some (bytes.take len).length := by
  rw [frameLength_take (frameLength_ge hlen) longer.le, hlen, List.length_take_of_le longer.le]

/-- All pieces but the last are frames of exactly their length (R76). -/
theorem splitFrames_dropLast {n : Nat} {bytes : List Byte} :
    ∀ b ∈ (splitFrames n bytes).dropLast, frameLength b = some b.length := by
  induction n generalizing bytes with
  | zero => simp [splitFrames]
  | succ n ih =>
    unfold splitFrames
    split
    next => simp
    next =>
      split
      next => simp
      next len hlen =>
        split
        next => simp
        next longer =>
          cases rest : splitFrames n (bytes.drop len) with
          | nil => simp
          | cons c cs =>
            intro b hb
            rw [List.dropLast_cons_cons, List.mem_cons] at hb
            obtain rfl | later := hb
            · exact frameLength_take_self hlen (by omega)
            · exact ih b (rest ▸ later)

end Sys2Proof

namespace Sys2Proof.Machine

/-- Settles O55: no cut loses a byte, and a piece is cut off only where its frame ends. -/
theorem sentBytesAreCutIntoFrames : Obligations.SentBytesAreCutIntoFrames := by
  intro host obtained bytes
  refine ⟨?_, framesFrom_wf host obtained bytes, fun f hf => ?_⟩
  · rw [framesFrom, List.flatMap_map]
    exact List.flatMap_id.trans (splitFrames_flatten le_rfl)
  · rw [framesFrom, ← List.map_dropLast] at hf
    obtain ⟨b, hb, rfl⟩ := List.mem_map.mp hf
    have exact_length := splitFrames_dropLast b hb
    exact ⟨isWhole_of_frameLength exact_length, exact_length⟩

/-- A proper first part of one frame is one frame in flight. -/
theorem framesFrom_take {bytes : List Byte} (one : frameLength bytes = some bytes.length) {n : Nat}
    (pos : 0 < n) (lt : n < bytes.length) (host obtained : Nat) :
    framesFrom host obtained (bytes.take n) =
      [{ host := host, obtained := obtained, bytes := bytes.take n }] := by
  have length : (bytes.take n).length = n := List.length_take_of_le lt.le
  refine framesFrom_one (List.ne_nil_of_length_pos (by omega)) (fun len hlen => ?_) host obtained
  by_cases header : 24 ≤ n
  · rw [frameLength_take header lt.le, one] at hlen
    cases hlen
    omega
  · simp [frameLength_short (bytes := bytes.take n) (by omega)] at hlen

/-- Settles O33: the first piece waits as one frame, which the rest then completes. -/
theorem frameInTwoPiecesIsTheFrame : Obligations.FrameInTwoPiecesIsTheFrame := by
  intro s host obtained bytes n one pos lt
  have waiting : (s.landSend host obtained (bytes.take n)).port[s.port.length]? =
      some { host := host, obtained := obtained, bytes := bytes.take n } := by
    rw [State.landSend_port, framesFrom_take one pos lt, List.getElem?_concat_length]
  rw [State.landMore_of_some waiting, List.take_append_drop, State.landSend_port,
    framesFrom_take one pos lt, List.take_left, List.drop_of_length_le (by simp), List.append_nil]
  rfl

end Sys2Proof.Machine
end
